-- ==== Sys2Proof/Syntax.lean ====
section
/-! DEFINITION. The command set: one constructor for each row of spec/opcode_table.json (spec/30_encoding.md R94).
All operands but MRTEST's immediate are implicit registers (R93). -/

namespace Sys2Proof

inductive Instr where
  | clr                     -- status housekeeping (R200)
  | modmul                  -- modular multiplication (R110)
  | modexp                  -- modular exponentiation (R120)
  | split2                  -- power of two times odd part (R135)
  | xgcd                    -- gcd with Bezout coefficients (R145)
  | modinv                  -- modular inverse (R155)
  | sfcheck                 -- small-factor check (R170)
  | mrtest (rounds : Nat)   -- Miller-Rabin test, `rounds = imm16` (R175)
  | ptest                   -- combined primality predicate (R190)
  deriving DecidableEq, Repr

end Sys2Proof
end

