-- ==== Sys2Proof/WellFormed.lean ====
section
/-! DEFINITION. Which commands have an encoding: the range of the one immediate (spec/30_encoding.md R93). -/

namespace Sys2Proof

/-- MRTEST's `rounds` is a 16-bit unsigned immediate, 0 to 65535 (R93); the other commands have no field. -/
def Instr.wellFormed : Instr → Bool
  | .clr => true
  | .modmul => true
  | .modexp => true
  | .split2 => true
  | .xgcd => true
  | .modinv => true
  | .sfcheck => true
  | .mrtest rounds => decide (rounds ≤ 65535)
  | .ptest => true

end Sys2Proof
end

