-- ==== Sys2Proof/Word.lean ====
section
/-! DEFINITION. The 32-bit word every host access moves (spec/20_memory.md R63) and its bit fields (R9). -/

namespace Sys2Proof

/-- One word of the register interface: 32 bits (R63). -/
abbrev Word := BitVec 32

/-- One byte of a word, where a platform maps the register space into bytes (R69). -/
abbrev Byte := BitVec 8

/-- `v[hi:lo]`, the `hi - lo + 1` bits from `hi` down to `lo`, as an unsigned number (R9). -/
def field (v : Word) (hi lo : Nat) : Nat :=
  v.toNat / 2 ^ lo % 2 ^ (hi + 1 - lo)

end Sys2Proof
end

