-- ==== Sys2Proof/Decode.lean ====
section
/-! DEFINITION. The command encoding of spec/30_encoding.md: the rows of R94, decode (R95), and the encoder written
from the same table. -/

namespace Sys2Proof

/-- Why a word decodes to `Illegal` (R96). -/
inductive Illegal where
  | opcode       -- an opcode in 0x09 to 0xFF
  | zeroFieldZ   -- a Z-format opcode with a bit set in 31:8
  | zeroFieldI   -- opcode 0x07 with a bit set in 31:24
  deriving DecidableEq, Repr

/-- What decode yields: a command or `Illegal` (R95). -/
inductive Decoded where
  | instr (i : Instr)
  | illegal (why : Illegal)
  deriving DecidableEq, Repr

/-- The Z-format command of an opcode (R91, R94). -/
def zCommand : Nat → Option Instr
  | 0x00 => some .clr
  | 0x01 => some .modmul
  | 0x02 => some .modexp
  | 0x03 => some .split2
  | 0x04 => some .xgcd
  | 0x05 => some .modinv
  | 0x06 => some .sfcheck
  | 0x08 => some .ptest
  | _ => none

/-- `decode(w)` of R95, total on 32-bit words. -/
def decode (w : Word) : Decoded :=
  if field w 7 0 = 0x07 then
    if field w 31 24 = 0 then .instr (.mrtest (field w 23 8)) else .illegal .zeroFieldI
  else
    match zCommand (field w 7 0) with
    | some i => if field w 31 8 = 0 then .instr i else .illegal .zeroFieldZ
    | none => .illegal .opcode

/-- Word of the bytes at offsets 0, 1, 2, 3 of it, little-endian (R69); bytes not given are zero. -/
def wordOfBytes : List Byte → Nat
  | [] => 0
  | b :: bs => b.toNat + 256 * wordOfBytes bs

/-- The four bytes of a word, lowest offset first: byte `j` is bits `8j+7 : 8j` (R69). -/
def bytesOfWord (w : Word) : List Byte :=
  [BitVec.ofNat 8 (field w 7 0), BitVec.ofNat 8 (field w 15 8),
   BitVec.ofNat 8 (field w 23 16), BitVec.ofNat 8 (field w 31 24)]

/-- A command from the bytes of its word: exactly four bytes, one fixed length (R90). -/
def decodeBytes (bs : List Byte) : Option Decoded :=
  if bs.length = 4 then some (decode (BitVec.ofNat 32 (wordOfBytes bs))) else none

/-- The opcode byte of a command (R94). -/
def Instr.opcode : Instr → Nat
  | .clr => 0x00
  | .modmul => 0x01
  | .modexp => 0x02
  | .split2 => 0x03
  | .xgcd => 0x04
  | .modinv => 0x05
  | .sfcheck => 0x06
  | .mrtest _ => 0x07
  | .ptest => 0x08

/-- The immediate field, bits 23:8, zero in format Z (R91, R92). -/
def Instr.imm16 : Instr → Nat
  | .clr => 0
  | .modmul => 0
  | .modexp => 0
  | .split2 => 0
  | .xgcd => 0
  | .modinv => 0
  | .sfcheck => 0
  | .mrtest rounds => rounds
  | .ptest => 0

/-- The word of a well-formed command: opcode in bits 7:0, immediate in bits 23:8, zeros above (R91, R92). -/
def encode (i : Instr) : Word :=
  BitVec.ofNat 32 (i.opcode + i.imm16 * 0x100)

/-- One row of the opcode map (R94): a word `w` is the command when `w and mask = match`. -/
structure OpcodeRow where
  mnemonic : String
  matchBits : Word
  mask : Word
  deriving DecidableEq, Repr

/-- The nine rows of R94, in the table's order. -/
def opcodeTable : List OpcodeRow :=
  [⟨"CLR", 0x00000000#32, 0xFFFFFFFF#32⟩, ⟨"MODMUL", 0x00000001#32, 0xFFFFFFFF#32⟩,
   ⟨"MODEXP", 0x00000002#32, 0xFFFFFFFF#32⟩, ⟨"SPLIT2", 0x00000003#32, 0xFFFFFFFF#32⟩,
   ⟨"XGCD", 0x00000004#32, 0xFFFFFFFF#32⟩, ⟨"MODINV", 0x00000005#32, 0xFFFFFFFF#32⟩,
   ⟨"SFCHECK", 0x00000006#32, 0xFFFFFFFF#32⟩, ⟨"MRTEST", 0x00000007#32, 0xFF0000FF#32⟩,
   ⟨"PTEST", 0x00000008#32, 0xFFFFFFFF#32⟩]

/-- The mnemonic of R94 that a command's row bears. -/
def Instr.mnemonic : Instr → String
  | .clr => "CLR"
  | .modmul => "MODMUL"
  | .modexp => "MODEXP"
  | .split2 => "SPLIT2"
  | .xgcd => "XGCD"
  | .modinv => "MODINV"
  | .sfcheck => "SFCHECK"
  | .mrtest _ => "MRTEST"
  | .ptest => "PTEST"

/-- The word of an instruction whose low `nbits` bits are `w` and whose other bits are zero, numbered as the
opcode table numbers them. -/
def tableWord (nbits w : Nat) : Word :=
  BitVec.ofNat 32 (w % 2 ^ nbits)

/-- The command that `decode` reads from the table's bits, laid out as the four bytes of one word (R69, R90).
No command is longer than 32 bits, so bits above 31 are no command. -/
def decodeTableWord (nbits w : Nat) : Option Instr :=
  if w % 2 ^ nbits < 2 ^ 32 then
    match decodeBytes (bytesOfWord (tableWord nbits w)) with
    | some (.instr i) => some i
    | some (.illegal _) => none
    | none => none
  else none

end Sys2Proof
end

