-- ==== Sys2Proof/Config.lean ====
section
/-! DEFINITION. The implementation parameters of spec/00_scope.md R6, and the free values of the reset input
(spec/10_state.md R44). -/

namespace Sys2Proof

/-- The OPEN parameters of one instance of the hardware (R6). They are plain data that State holds and no step
changes, so a statement over every state is a statement over every value of them (log entries 1 and 2).
`testBits` tabulates MR_TESTBITS: entry `L` is its value at bit length `L`, and a bit length beyond the table takes
the spec's default `4 * floor(L / 4)` (R183), so that the empty table is the default function and a table of
`OPW + 1` entries is any function on the bit lengths that occur. -/
structure Params where
  opw      : Nat
  testBits : List Nat
  deriving DecidableEq, Repr

/-- The constraint R6 puts on OPW: a multiple of 32 with `32 <= OPW <= 32768`. -/
abbrev Params.Legal (p : Params) : Prop :=
  p.opw % 32 = 0 ∧ 32 ≤ p.opw ∧ p.opw ≤ 32768

/-- XGCD_CAP (R6, R147): the largest number of division rounds of XGCD and MODINV. -/
def Config.xgcdCap : Nat := 1000000

/-- PTEST_ROUNDS (R6, R193): the Miller-Rabin rounds of PTEST. -/
def Config.ptestRounds : Nat := 64

/-- The instance that `State.reset` is a state of: `OPW = 64`, the width of every program of
spec/95_test_vectors.md section 3, and the default MR_TESTBITS. DESIGN CHOICE, unsafe for a claim about
`State.reset` alone: R6 leaves both open (log entries 1 and 2). Statements quantify over `Params` instead. -/
def Config.referenceParams : Params := { opw := 64, testBits := [] }

/-- Free value: what a wide register holds after the reset input, taken modulo `2^OPW`, one argument for each
register of each reset. R44: "any value of the register's width; a model draws it freely" (log entry 6). -/
opaque Config.freeWide : Nat → Nat

/-- Free value: bits 15:0 of K after the reset input (R44, log entry 6). -/
opaque Config.freeHalf : Nat → BitVec 16

end Sys2Proof
end

