-- ==== Sys2Proof/Machine/State.lean ====
section
/-! DEFINITION. The architectural and hidden state of spec/10_state.md, the events of the three agents
(spec/00_scope.md R15), the reasons a step stops, and the state after reset (R44). Plain data throughout. -/

namespace Sys2Proof.Machine

/-- The seven wide registers (R21). -/
inductive WideReg where
  | A | B | E | N | R | S | T
  deriving DecidableEq, Repr

/-- The sequencer's PHASE (R40). -/
inductive Phase where
  | idle    -- no command running
  | exec    -- a command is accepted and the engine has a step to take
  | waitw   -- a request is out and the engine is held until the response
  deriving DecidableEq, Repr

/-- The fault causes of spec/60_exceptions.md R221. They end a command and are reported in STATUS; they do not
stop the machine. -/
inductive FaultCode where
  | illegalCmd       -- 1, ERR_ILLEGAL_CMD
  | operand          -- 2, ERR_OPERAND
  | arithExhausted   -- 3, ERR_ARITH_EXHAUSTED
  | notCoprime       -- 4, ERR_NOT_COPRIME
  | witness          -- 5, ERR_WITNESS
  deriving DecidableEq, Repr

/-- The fields of STATUS (R33). Its reserved bits are no storage; `statusWord` reads them as zero. -/
structure Status where
  busy    : Bool
  done    : Bool
  err     : Bool
  verdict : Bool
  sneg    : Bool
  tneg    : Bool
  busywr  : Bool
  errcode : BitVec 4
  deriving DecidableEq, Repr

/-- The working values of MODEXP: accumulator, running base, remaining exponent (R40, R120). -/
structure ExpWork where
  r : Nat
  b : Nat
  e : Nat
  deriving DecidableEq, Repr

/-- The working values of XGCD and MODINV; `s0`, `s1`, `t0`, `t1` are signed, `i` counts rounds (R40, R146). -/
structure EuclidWork where
  a  : Nat
  b  : Nat
  s0 : Int
  s1 : Int
  t0 : Int
  t1 : Int
  i  : Nat
  deriving DecidableEq, Repr

/-- The working values of MRTEST and PTEST: candidate, witness width, split of `n - 1`, round index, current `b`
(R40, R175). -/
structure MrWork where
  n  : Nat
  tb : Nat
  k  : Nat
  m  : Nat
  i  : Nat
  b  : Nat
  deriving DecidableEq, Repr

/-- What stands at an offset of the register space (R61): a 32-bit register, word `i` of a wide register, or a
reserved word. -/
inductive Place where
  | param
  | ctrl
  | status
  | cmd
  | k
  | word (x : WideReg) (i : Nat)
  | reserved
  deriving DecidableEq, Repr

/-- One host access: a read or write of `bytes` bytes at byte offset `off` of the register space (R11). Only
`bytes = 4` at an aligned offset inside the map is an operation of the hardware (R63, R64). -/
inductive Access where
  | read (off bytes : Nat)
  | write (off bytes : Nat) (v : Word)
  deriving DecidableEq, Repr

/-- One event of an agent (R15, R70). -/
inductive Turn where
  | host (x : Access)   -- a host access
  | reset               -- the host asserts the reset input (R260)
  | engine              -- the engine takes its step (R203)
  | respond (a : Nat)   -- the random source answers RndResp(a) (R75)
  deriving DecidableEq, Repr

/-- What the block puts on its ports: the word a host read returns (R66), or the request RndReq(bits) (R75). -/
inductive Output where
  | readData (off : Nat) (v : Word)
  | rndReq (bits : BitVec 16)
  deriving DecidableEq, Repr

/-- The state: every register of R20, the hidden state of R40 and R41, and the model's own `schedule`, `outputs`
and `draws`. A wide register is the unsigned number it holds (R21), below `2^OPW` in every state of
`Sys2Proof.Safety.Inv` (log entry 8). -/
structure State where
  params   : Params          -- PARAM's OPW and the function MR_TESTBITS, constant (R6, R31)
  ie       : Bool            -- CTRL.IE (R32)
  status   : Status          -- STATUS (R33)
  regA     : Nat             -- operand A (R21)
  regB     : Nat             -- operand B
  regE     : Nat             -- operand E
  regN     : Nat             -- operand N
  regR     : Nat             -- result R
  regS     : Nat             -- result S
  regT     : Nat             -- result T
  regK     : Word            -- result K (R25)
  phase    : Phase           -- PHASE (R40)
  cmdreg   : Word            -- CMDREG (R40)
  exp      : ExpWork         -- MODEXP's working values (R40)
  euclid   : EuclidWork      -- XGCD's and MODINV's working values (R40)
  mr       : MrWork          -- MRTEST's and PTEST's working values (R40)
  witness  : Option Nat      -- the witness in hand for the current round, none before the first (R204)
  rndPend  : Bool            -- RNDPEND (R41)
  rndBits  : BitVec 16       -- RNDBITS (R41)
  schedule : List Turn       -- the model's own: the events to come, in the total order of R70 (log entry 3)
  outputs  : List Output     -- the model's own: what has left on the ports, newest first (log entry 11)
  draws    : Nat             -- the model's own: how many free values resets have drawn (log entry 6)
  deriving DecidableEq, Repr

/-- What stops the machine. Nothing in the hardware does (R220, R230: a fault ends a command, not the machine). -/
inductive Fault where
  /-- Raised by the engine's turn when CMDREG holds the CLR word: CLR is performed inside the host's write and is
  never accepted (R201), so no rule gives the engine a step for it. No state of `Inv` has it. Safe: the model stops
  where the spec has no state (log entry 15). -/
  | clrInSequencer
  deriving DecidableEq, Repr

/-- What the spec says is no operation of this hardware, each under its own name, and an arm without a meaning. -/
inductive Refusal where
  /-- Raised by `exec`'s arm of a command that has no meaning yet. Safe: the model stops. -/
  | notModelled (mnemonic : String)
  /-- Raised by a host access whose width is not 32 bits (R64, S2: refuse). Safe: no claim covers the run. -/
  | accessWidth
  /-- Raised by a host access whose offset is not a multiple of 4 (R64, S2: refuse). Safe. -/
  | accessMisaligned
  /-- Raised by a host access outside offsets 0x0000 to 0x7FFC (R64, S2: refuse). Safe. -/
  | accessOutside
  /-- Raised by a response with no request outstanding (R75, S3: refuse). Safe. -/
  | responseWithoutRequest
  /-- Raised by a response that does not fit the `OPW`-bit field of RndResp (R100). Safe. -/
  | responseTooWide
  deriving DecidableEq, Repr

/-- STATUS after reset: 0 (R44). -/
def Status.reset : Status :=
  { busy := false, done := false, err := false, verdict := false, sneg := false, tneg := false, busywr := false,
    errcode := 0 }

/-- The machine of parameters `p` right after reset (R44): CTRL and STATUS zero, PHASE IDLE, RNDPEND zero. R44
leaves A, B, E, N, R, S, T and K[15:0] unspecified; the model names zero (DESIGN CHOICE, unsafe, log entry 5). The
values R44 calls "not valid" are zero too (DESIGN CHOICE, log entry 7). -/
def State.resetWith (p : Params) : State :=
  { params := p, ie := false, status := Status.reset
    regA := 0, regB := 0, regE := 0, regN := 0, regR := 0, regS := 0, regT := 0, regK := 0
    phase := .idle, cmdreg := 0
    exp := { r := 0, b := 0, e := 0 }
    euclid := { a := 0, b := 0, s0 := 0, s1 := 0, t0 := 0, t1 := 0, i := 0 }
    mr := { n := 0, tb := 0, k := 0, m := 0, i := 0, b := 0 }
    witness := none, rndPend := false, rndBits := 0
    schedule := [], outputs := [], draws := 0 }

/-- The machine right after reset, at the reference parameters (log entry 1). -/
def State.reset : State :=
  State.resetWith Config.referenceParams

end Sys2Proof.Machine
end

