-- ==== Sys2Proof/Machine/Operands.lean ====
section
/-! DEFINITION. Operand forms: the parameters as a command reads them (spec/00_scope.md R6), bit length (R8), the
wide registers and their 32-bit words (spec/20_memory.md R62), and the register map (R61, R64). -/

namespace Sys2Proof.Machine

/-- OPW, the width of every wide register (R6). -/
def State.opw (s : State) : Nat :=
  s.params.opw

/-- NW, the words per wide register (R6). -/
def State.nw (s : State) : Nat :=
  s.params.opw / 32

/-- `bitlen(v)`: 0 when `v = 0`, else `floor(log2 v) + 1` (R8). -/
def bitlen (v : Nat) : Nat :=
  if v = 0 then 0 else Nat.log2 v + 1

/-- The spec's default of MR_TESTBITS, `4 * floor(L / 4)` (R183). -/
def defaultTestBits (l : Nat) : Nat :=
  4 * (l / 4)

/-- MR_TESTBITS of an instance at bit length `l` (R6, R183): the table where it has an entry, else the default. -/
def mrTestBits (p : Params) (l : Nat) : Nat :=
  p.testBits.getD l (defaultTestBits l)

/-- `x[NAME]` of a wide register (R10). -/
def State.wide (s : State) : WideReg → Nat
  | .A => s.regA
  | .B => s.regB
  | .E => s.regE
  | .N => s.regN
  | .R => s.regR
  | .S => s.regS
  | .T => s.regT

/-- `x[NAME] <- v` of a wide register (R10). -/
def State.setWide (s : State) : WideReg → Nat → State
  | .A, v => { s with regA := v }
  | .B, v => { s with regB := v }
  | .E, v => { s with regE := v }
  | .N, v => { s with regN := v }
  | .R, v => { s with regR := v }
  | .S, v => { s with regS := v }
  | .T, v => { s with regT := v }

/-- The registers the host may write: the operands (R21). -/
def WideReg.isOperand : WideReg → Bool
  | .A => true
  | .B => true
  | .E => true
  | .N => true
  | .R => false
  | .S => false
  | .T => false

/-- Word `i` of a wide value: bits `32*i+31 : 32*i` (R62). -/
def wordOf (v i : Nat) : Word :=
  BitVec.ofNat 32 (v / 2 ^ (32 * i))

/-- A wide value with word `i` replaced by `w`, the other bits keeping their value (R67). -/
def setWordOf (v i : Nat) (w : Word) : Nat :=
  v % 2 ^ (32 * i) + w.toNat * 2 ^ (32 * i) + v / 2 ^ (32 * (i + 1)) * 2 ^ (32 * (i + 1))

/-- The wide register of each 0x1000 window (R61). -/
def windowReg : Nat → Option WideReg
  | 1 => some .A
  | 2 => some .B
  | 3 => some .E
  | 4 => some .N
  | 5 => some .R
  | 6 => some .S
  | 7 => some .T
  | _ => none

/-- The 32-bit registers below 0x1000; the rest of that range is reserved (R61). -/
def lowPlace : Nat → Place
  | 0x0000 => .param
  | 0x0004 => .ctrl
  | 0x0008 => .status
  | 0x000C => .cmd
  | 0x0010 => .k
  | _ => .reserved

/-- The register map of R61 for `nw` words per wide register. -/
def placeOf (nw off : Nat) : Place :=
  match windowReg (off / 0x1000) with
  | some x => if off % 0x1000 / 4 < nw then .word x (off % 0x1000 / 4) else .reserved
  | none => lowPlace off

/-- The base offset of a wide register's window (R61). -/
def WideReg.base : WideReg → Nat
  | .A => 0x1000
  | .B => 0x2000
  | .E => 0x3000
  | .N => 0x4000
  | .R => 0x5000
  | .S => 0x6000
  | .T => 0x7000

/-- Why a host access is no operation of this hardware, if it is none (R64). Where several reasons hold the width
is named first, then the alignment (DESIGN CHOICE, log entry 12). -/
def accessRefusal (off bytes : Nat) : Option Refusal :=
  if bytes ≠ 4 then some .accessWidth
  else if off % 4 ≠ 0 then some .accessMisaligned
  else if 0x7FFC < off then some .accessOutside
  else none

/-- The magnitude a signed coefficient is stored with (R27). -/
def magnitude (c : Int) : Nat :=
  c.natAbs

/-- The sign flag a signed coefficient is stored with: 1 when it is negative; zero has sign 0 (R27). -/
def signFlag (c : Int) : Bool :=
  decide (c < 0)

/-- The signed coefficient that a magnitude and a sign flag stand for (R26). -/
def signedOf (neg : Bool) (mag : Nat) : Int :=
  if neg then -(mag : Int) else (mag : Int)

end Sys2Proof.Machine
end

