-- ==== Sys2Proof/Machine/Flags.lean ====
section
/-! DEFINITION. The status and control words of spec/10_state.md (R31 to R38), the fault codes (R221), the interrupt
line (R42), and every update of STATUS that a rule makes. -/

namespace Sys2Proof.Machine

/-- The numeric code of a fault (R221). -/
def FaultCode.code : FaultCode → BitVec 4
  | .illegalCmd => 1
  | .operand => 2
  | .arithExhausted => 3
  | .notCoprime => 4
  | .witness => 5

/-- One flag at bit `i` of a word. -/
def flagBit (b : Bool) (i : Nat) : Nat :=
  if b then 2 ^ i else 0

/-- STATUS as the host reads it, by the layout of R33; bits 7 and 31:12 read 0. -/
def statusWord (f : Status) : Word :=
  BitVec.ofNat 32 (flagBit f.busy 0 + flagBit f.done 1 + flagBit f.err 2 + flagBit f.verdict 3 + flagBit f.sneg 4
    + flagBit f.tneg 5 + flagBit f.busywr 6 + f.errcode.toNat * 2 ^ 8)

/-- PARAM: OPW in bits 15:0, zero above (R31). -/
def paramWord (p : Params) : Word :=
  BitVec.ofNat 32 (p.opw % 2 ^ 16)

/-- CTRL: IE in bit 0, zero above (R32). -/
def ctrlWord (ie : Bool) : Word :=
  BitVec.ofNat 32 (flagBit ie 0)

/-- `irq = CTRL.IE and (STATUS.DONE or STATUS.ERR)`, a level, no stored state (R42, R233). -/
def State.irq (s : State) : Bool :=
  s.ie && (s.status.done || s.status.err)

/-- STATUS at the acceptance of a command (R202). -/
def Status.accepted (f : Status) : Status :=
  { f with done := false, err := false, errcode := 0, busy := true }

/-- STATUS at `Complete` (R205). -/
def Status.completed (f : Status) : Status :=
  { f with busy := false, done := true }

/-- STATUS at `raise Fault(code)` (R230). -/
def Status.faulted (f : Status) (c : FaultCode) : Status :=
  { f with busy := false, done := false, err := true, errcode := c.code }

/-- STATUS at CLR (R200). -/
def Status.cleared (f : Status) : Status :=
  { f with done := false, err := false, errcode := 0, busywr := false }

end Sys2Proof.Machine
end

