-- ==== Sys2Proof/Machine/Ops.lean ====
section
/-! DEFINITION. The shared operations of spec/45_system.md and spec/60_exceptions.md: acceptance, completion, taking
a fault, acknowledging it, the witness draw, and the reads and writes of the register space. -/

namespace Sys2Proof.Machine

/-- Acceptance of a word, legal or illegal, all in the host's one write (R202). No round is begun yet. -/
def accept (w : Word) (s : State) : State :=
  { s with status := s.status.accepted, phase := .exec, cmdreg := w, witness := none }

/-- `Complete` (R205), applied to a state in which the command's result registers and flags are written. A witness
in hand is used up. -/
def complete (s : State) : State :=
  { s with status := s.status.completed, phase := .idle, witness := none }

/-- TAKING A FAULT: `raise Fault(code)` (R230, R206). Nothing is saved and control goes nowhere; no result register
or result flag is written. A witness in hand is used up (R229). -/
def raiseFault (c : FaultCode) (s : State) : State :=
  { s with status := s.status.faulted c, phase := .idle, rndPend := false, witness := none }

/-- Acknowledging a fault or a completion (R231): there is no return, and nothing saved is restored. The four
assignments of CLR (R200). -/
def clearStatus (s : State) : State :=
  { s with status := s.status.cleared }

/-- The request of `Draw(tb)` (R181, R204): RndReq(tb) leaves on the port and the engine is held. -/
def requestWitness (tb : Nat) (s : State) : State :=
  { s with outputs := .rndReq (BitVec.ofNat 16 tb) :: s.outputs, rndPend := true, rndBits := BitVec.ofNat 16 tb,
           phase := .waitw, witness := none }

/-- `STATUS.VERDICT <- v` and `Complete` (R170, R175). -/
def completeVerdict (v : Bool) (s : State) : State :=
  complete { s with status := { s.status with verdict := v } }

/-- The result writes of XGCD (R145): the gcd in R, the coefficients in sign and magnitude (R27). -/
def writeBezout (g : Nat) (c d : Int) (s : State) : State :=
  { s with regR := g, regS := magnitude c, regT := magnitude d,
           status := { s.status with sneg := signFlag c, tneg := signFlag d } }

/-- A host write to a busy block: only BUSYWR records it (R39, R67). -/
def dropWrite (s : State) : State :=
  { s with status := { s.status with busywr := true } }

/-- What `MemRead` returns at a place of the map (R66). -/
def readPlace (s : State) : Place → Word
  | .param => paramWord s.params
  | .ctrl => ctrlWord s.ie
  | .status => statusWord s.status
  | .cmd => 0
  | .k => s.regK
  | .word x i => wordOf (s.wide x) i
  | .reserved => 0

/-- `MemRead(off, 4)` (R66): it changes no state. -/
def memRead (s : State) (off : Nat) : Word :=
  readPlace s (placeOf s.nw off)

/-- The register space byte by byte, where a platform maps it so: the byte at `4*i + j` is bits `8*j+7 : 8*j` of the
word at `4*i` (R69). -/
def registerByte (s : State) (off : Nat) : Byte :=
  BitVec.ofNat 8 ((memRead s (off - off % 4)).toNat / 2 ^ (8 * (off % 4)))

/-- The host's write of word `i` of a wide register (R67): an operand takes it unless a command runs, which drops
it; a result ignores it. -/
def writeWord (x : WideReg) (i : Nat) (v : Word) (s : State) : State :=
  if x.isOperand then
    if s.status.busy then dropWrite s else s.setWide x (setWordOf (s.wide x) i v)
  else s

/-- `MemWrite(off, 4, v)` at every place but CMD (R67). CMD is handled by `writeCmd`, which runs CLR. -/
def writePlace (v : Word) (s : State) : Place → State
  | .param => s
  | .ctrl => { s with ie := v.getLsbD 0 }
  | .status => s
  | .cmd => s
  | .k => s
  | .word x i => writeWord x i v s
  | .reserved => s

/-- What the reset input leaves (R261, R44): control and status zero, PHASE IDLE, RNDPEND zero, an outstanding
request withdrawn and a running command abandoned (R262). Each wide register and K[15:0] takes a free value of its
width; PARAM is constant. The hidden values are not valid and are those of `State.reset` (log entries 6 and 7). -/
def resetInput (s : State) : State :=
  { State.resetWith s.params with
    regA := Config.freeWide (s.draws) % 2 ^ s.opw
    regB := Config.freeWide (s.draws + 1) % 2 ^ s.opw
    regE := Config.freeWide (s.draws + 2) % 2 ^ s.opw
    regN := Config.freeWide (s.draws + 3) % 2 ^ s.opw
    regR := Config.freeWide (s.draws + 4) % 2 ^ s.opw
    regS := Config.freeWide (s.draws + 5) % 2 ^ s.opw
    regT := Config.freeWide (s.draws + 6) % 2 ^ s.opw
    regK := (Config.freeHalf s.draws).setWidth 32
    draws := s.draws + 7
    schedule := s.schedule
    outputs := s.outputs }

/-- The random source's step "respond" (R204): enabled exactly when PHASE = WAITW, with any `OPW`-bit number. Any
other response is no operation of this hardware (R75, R100). -/
def respond (a : Nat) (s : State) : Host.Outcome State Fault Refusal :=
  if s.phase = .waitw then
    if a < 2 ^ s.opw then .next { s with rndPend := false, phase := .exec, witness := some a }
    else .refused .responseTooWide
  else .refused .responseWithoutRequest

/-- A state in which the very next step runs the command whose word is `w` (log entry 4). CLR is performed inside
the host's CMD write (R201), so its word is placed as that write to an idle block; any other word is placed as
accepted (R202) with the engine's turn next. -/
def placeWord (w : Word) (s : State) : State :=
  if decode w = .instr .clr then
    { s with status := { s.status with busy := false }, phase := .idle, rndPend := false, witness := none,
             schedule := .host (.write 0x000C 4 w) :: s.schedule }
  else
    { accept w s with rndPend := false, schedule := .engine :: s.schedule }

end Sys2Proof.Machine
end

