-- ==== Sys2Proof/Machine/Euclid.lean ====
section
/-! DEFINITION. XGCD and MODINV, the extended-Euclidean unit (spec/43_euclid.md). -/

namespace Sys2Proof.Machine

/-- The starting values of `xgcd(a0, b0)` (R146). -/
def euclidStart (a0 b0 : Nat) : EuclidWork :=
  { a := a0, b := b0, s0 := 1, s1 := 0, t0 := 0, t1 := 1, i := 0 }

/-- The three swaps that end a round whose remainder is not 0 (R146). -/
def euclidSwap (w : EuclidWork) : EuclidWork :=
  { a := w.b, b := w.a % w.b
    s0 := w.s1, s1 := w.s0 - (w.a / w.b : Nat) * w.s1
    t0 := w.t1, t1 := w.t0 - (w.a / w.b : Nat) * w.t1
    i := w.i + 1 }

/-- The round loop (R146) with `left` rounds left of the cap: `none` when the cap is reached (R147), else the
working values of the round whose remainder is 0, that round counted in `i`. -/
def euclidLoop : Nat → EuclidWork → Option EuclidWork
  | 0, _ => none
  | left + 1, w => if w.a % w.b = 0 then some { w with i := w.i + 1 } else euclidLoop left (euclidSwap w)

/-- `xgcd(a0, b0)` for `b0 >= 1` (R146): the gcd is the result's `b`, the coefficients its `s1` and `t1`; `none`
is `ERR_ARITH_EXHAUSTED` (R147). -/
def xgcd (a0 b0 : Nat) : Option EuclidWork :=
  euclidLoop Config.xgcdCap (euclidStart a0 b0)

/-- `R = s mod N` with the floor modulus of R8 (R155, R156). -/
def inverseOf (c : Int) (n : Nat) : Nat :=
  (c % (n : Int)).toNat

/-- XGCD (R145): R, S, T, SNEG, TNEG from `xgcd(A, B)`; ERR_OPERAND when `B = 0` (R148), ERR_ARITH_EXHAUSTED past
the cap (R147). -/
def execXgcd (s : State) : Host.Outcome State Fault Refusal :=
  if s.regB = 0 then .next (raiseFault .operand s)
  else
    match xgcd s.regA s.regB with
    | none => .next (raiseFault .arithExhausted s)
    | some w => .next (complete (writeBezout w.b w.s1 w.t1 { s with euclid := w }))

/-- MODINV (R155): `R` the inverse of `A` modulo `N`, S, T, SNEG, TNEG the raw coefficients; faults in the order
ERR_OPERAND (`N = 0`), ERR_ARITH_EXHAUSTED, ERR_NOT_COPRIME (the gcd is not 1). -/
def execModinv (s : State) : Host.Outcome State Fault Refusal :=
  if s.regN = 0 then .next (raiseFault .operand s)
  else
    match xgcd s.regA s.regN with
    | none => .next (raiseFault .arithExhausted s)
    | some w =>
      if w.b = 1 then .next (complete (writeBezout (inverseOf w.s1 s.regN) w.s1 w.t1 { s with euclid := w }))
      else .next (raiseFault .notCoprime s)

end Sys2Proof.Machine
end

