-- ==== Sys2Proof/Machine/Modmul.lean ====
section
/-! DEFINITION. MODMUL, the modular multiplier (spec/40_modmul.md). -/

namespace Sys2Proof.Machine

/-- The multiplier unit: `(a * b) mod n` on ordinary residues, the product exact, any modulus `n >= 1` (R110,
R115). The same unit serves MODEXP and the Miller-Rabin rounds (R114). -/
def modMul (a b n : Nat) : Nat :=
  a * b % n

/-- MODMUL (R110): `R <- (A * B) mod N`; ERR_OPERAND when `N = 0` (R111). -/
def execModmul (s : State) : Host.Outcome State Fault Refusal :=
  if s.regN = 0 then .next (raiseFault .operand s)
  else .next (complete { s with regR := modMul s.regA s.regB s.regN })

end Sys2Proof.Machine
end

