-- ==== Sys2Proof/Machine/Modexp.lean ====
section
/-! DEFINITION. MODEXP, right-to-left square-and-multiply (spec/41_modexp.md). -/

namespace Sys2Proof.Machine

/-- The working values before the loop: `r` is 1, not reduced (R120, R122). -/
def expStart (b e : Nat) : ExpWork :=
  { r := 1, b := b, e := e }

/-- The loop body (R120): multiply on a 1 bit, always square, shift the exponent right. -/
def expBody (n : Nat) (w : ExpWork) : ExpWork :=
  { r := if w.e % 2 = 1 then modMul w.r w.b n else w.r
    b := modMul w.b w.b n
    e := w.e / 2 }

/-- `while e != 0` (R120), at most `fuel` times; `bitlen e` times is all it runs (R123, log entry 18). -/
def expLoop (n : Nat) : Nat → ExpWork → ExpWork
  | 0, w => w
  | fuel + 1, w => if w.e = 0 then w else expLoop n fuel (expBody n w)

/-- The working values after the loop. -/
def expRun (n : Nat) (w : ExpWork) : ExpWork :=
  expLoop n (bitlen w.e) w

/-- `modpow(b, e, n)`, the function of R120 that a Miller-Rabin round uses (R178). -/
def modPow (b e n : Nat) : Nat :=
  (expRun n (expStart b e)).r

/-- MODEXP (R120): `R <- A ^ E mod N` by the loop; ERR_OPERAND when `N = 0`, also when `E = 0` (R122). -/
def execModexp (s : State) : Host.Outcome State Fault Refusal :=
  if s.regN = 0 then .next (raiseFault .operand s)
  else
    .next (complete { s with exp := expRun s.regN (expStart s.regA s.regE), regR := modPow s.regA s.regE s.regN })

end Sys2Proof.Machine
end

