-- ==== Sys2Proof/Machine/Split.lean ====
section
/-! DEFINITION. SPLIT2, the power-of-two splitter (spec/42_split2.md). -/

namespace Sys2Proof.Machine

/-- `while n[0] = 0` (R135), at most `fuel` times, counting `k`. -/
def splitLoop : Nat → Nat → Nat → Nat × Nat
  | 0, k, n => (k, n)
  | fuel + 1, k, n => if n % 2 = 0 then splitLoop fuel (k + 1) (n / 2) else (k, n)

/-- `split2(n) = (k, m)` with `n = 2^k * m`, `m` odd, for `n >= 1` (R135); the loop runs fewer than `bitlen n` times
(R137, log entry 18). -/
def split2 (n : Nat) : Nat × Nat :=
  splitLoop (bitlen n) 0 n

/-- SPLIT2 (R135): `K <- zext_32(k)`, `R <- m` of `A`; ERR_OPERAND when `A = 0` (R136). -/
def execSplit2 (s : State) : Host.Outcome State Fault Refusal :=
  if s.regA = 0 then .next (raiseFault .operand s)
  else
    .next (complete { s with regK := BitVec.ofNat 32 (split2 s.regA).1, regR := (split2 s.regA).2 })

end Sys2Proof.Machine
end

