-- ==== Sys2Proof/Machine/Primality.lean ====
section
/-! DEFINITION. SFCHECK, MRTEST and PTEST, the Miller-Rabin test controller (spec/44_primality.md), cut into engine
steps at each draw as spec/45_system.md R204 says. -/

namespace Sys2Proof.Machine

/-- SMALL_PRIMES: the 25 primes not above 100 (R171). -/
def smallPrimes : List Nat :=
  [2, 3, 5, 7, 11, 13, 17, 19, 23, 29, 31, 37, 41, 43, 47, 53, 59, 61, 67, 71, 73, 79, 83, 89, 97]

/-- `smallFactorCheck(n)`: true when no listed prime divides `n` (R170). -/
def smallFactorCheck (n : Nat) : Bool :=
  smallPrimes.all fun p => n % p != 0

/-- The squaring loop `for j in 1 .. k - 1` (R175), `left` squarings left: the last `b`, and whether `n - 1` was
found. -/
def squareLoop (n : Nat) : Nat → Nat → Nat × Bool
  | 0, b => (b, false)
  | left + 1, b =>
    if modMul b b n = n - 1 then (modMul b b n, true) else squareLoop n left (modMul b b n)

/-- The body of one round on witness `a` (R175, R178): the last `b`, and whether the round passes. -/
def roundBody (n k m a : Nat) : Nat × Bool :=
  if modPow a m n = 1 ∨ modPow a m n = n - 1 then (modPow a m n, true)
  else squareLoop n (k - 1) (modPow a m n)

/-- The end of a step at round index `i` (R204): verdict 1 when every round has passed, else the next request. -/
def nextRound (rounds : Nat) (s : State) : State :=
  if s.mr.i = rounds then completeVerdict true s else requestWitness s.mr.tb s

/-- The working values after the preconditions: `tb`, the split of `n - 1`, and round index 0 (R177, R204). -/
def mrLoad (n tb : Nat) (w : MrWork) : MrWork :=
  { n := n, tb := tb, k := (split2 (n - 1)).1, m := (split2 (n - 1)).2, i := 0, b := w.b }

/-- The step "start" of R204 after PTEST's short circuit: the preconditions of R176, then the loads. -/
def mrStart (rounds : Nat) (s : State) : State :=
  if s.regN < 2 then raiseFault .operand s
  else if mrTestBits s.params (bitlen s.regN) < 2 ∨ s.opw < mrTestBits s.params (bitlen s.regN) then
    raiseFault .operand s
  else
    nextRound rounds { s with mr := mrLoad s.regN (mrTestBits s.params (bitlen s.regN)) s.mr }

/-- The step "round" of R204 with witness `a` in hand: the range check of R182, the body, then verdict 0 or the
next round. -/
def mrRound (rounds a : Nat) (s : State) : State :=
  if a < 2 ∨ 2 ^ s.mr.tb ≤ a then raiseFault .witness s
  else if (roundBody s.mr.n s.mr.k s.mr.m a).2 then
    nextRound rounds
      { s with mr := { s.mr with i := s.mr.i + 1, b := (roundBody s.mr.n s.mr.k s.mr.m a).1 } }
  else completeVerdict false { s with mr := { s.mr with b := (roundBody s.mr.n s.mr.k s.mr.m a).1 } }

/-- SFCHECK (R170): VERDICT from the small-factor check of `N`; no fault. -/
def execSfcheck (s : State) : Host.Outcome State Fault Refusal :=
  .next (completeVerdict (smallFactorCheck s.regN) s)

/-- MRTEST (R175) at its engine step: "start" when no round is begun, "round" with a witness in hand (R204). -/
def execMrtest (rounds : Nat) (s : State) : Host.Outcome State Fault Refusal :=
  match s.witness with
  | none => .next (mrStart rounds s)
  | some a => .next (mrRound rounds a s)

/-- PTEST (R190) at its engine step: the small-factor check first, which alone decides when it fails (R191), then
the Miller-Rabin test with 64 rounds. -/
def execPtest (s : State) : Host.Outcome State Fault Refusal :=
  match s.witness with
  | none =>
    if smallFactorCheck s.regN then .next (mrStart Config.ptestRounds s) else .next (completeVerdict false s)
  | some a => .next (mrRound Config.ptestRounds a s)

end Sys2Proof.Machine
end

