-- ==== Sys2Proof/Machine/System.lean ====
section
/-! DEFINITION. CLR, the housekeeping command (spec/45_system.md section 1). -/

namespace Sys2Proof.Machine

/-- CLR (R200): DONE, ERR, ERRCODE and BUSYWR to zero, performed inside the host's CMD write. -/
def execClr (s : State) : Host.Outcome State Fault Refusal :=
  .next (clearStatus s)

end Sys2Proof.Machine
end

