-- ==== Sys2Proof/Machine/Dispatch.lean ====
section
/-! DEFINITION. The meaning of each command of spec/opcode_table.json: CLR as the host's write performs it (R201),
every other command as its engine step performs it (R203, R204). -/

namespace Sys2Proof.Machine

def exec (i : Instr) (s : State) : Host.Outcome State Fault Refusal :=
  match i with
  | .clr => Sys2Proof.Machine.execClr s
  | .modmul => Sys2Proof.Machine.execModmul s
  | .modexp => Sys2Proof.Machine.execModexp s
  | .split2 => Sys2Proof.Machine.execSplit2 s
  | .xgcd => Sys2Proof.Machine.execXgcd s
  | .modinv => Sys2Proof.Machine.execModinv s
  | .sfcheck => Sys2Proof.Machine.execSfcheck s
  | .mrtest rounds => Sys2Proof.Machine.execMrtest rounds s
  | .ptest => Sys2Proof.Machine.execPtest s

end Sys2Proof.Machine
end

