-- ==== Sys2Proof/Machine/Agents.lean ====
section
/-! DEFINITION. The turns of the three agents (spec/00_scope.md R15): the host's accesses and reset, the engine's
step, the random source's response, and what happens when nothing is scheduled. -/

namespace Sys2Proof.Machine

/-- A host write of `w` to CMD (R201): dropped while busy, CLR performed at once, anything else accepted. -/
def writeCmd (w : Word) (s : State) : Host.Outcome State Fault Refusal :=
  if s.status.busy then .next (dropWrite s)
  else if decode w = .instr .clr then exec .clr s
  else .next (accept w s)

/-- `MemWrite(off, 4, v)` (R67). -/
def memWrite (off : Nat) (v : Word) (s : State) : Host.Outcome State Fault Refusal :=
  if placeOf s.nw off = .cmd then writeCmd v s else .next (writePlace v s (placeOf s.nw off))

/-- A host access (R11): refused when it is no operation of the hardware (R64); a read puts its word on the port
and changes nothing else (R66). -/
def hostAccess (x : Access) (s : State) : Host.Outcome State Fault Refusal :=
  match x with
  | .read off bytes =>
    match accessRefusal off bytes with
    | some r => .refused r
    | none => .next { s with outputs := .readData off (memRead s off) :: s.outputs }
  | .write off bytes v =>
    match accessRefusal off bytes with
    | some r => .refused r
    | none => memWrite off v s

/-- The engine's step in PHASE = EXEC (R203): decode CMDREG and run the command; an illegal word ends in
ERR_ILLEGAL_CMD (R222). CLR is never accepted (R201), so CMDREG never holds it (log entry 15). -/
def engineStep (s : State) : Host.Outcome State Fault Refusal :=
  match decode s.cmdreg with
  | .illegal _ => .next (raiseFault .illegalCmd s)
  | .instr i => if i = .clr then .fault .clrInSequencer else exec i s

/-- The engine's turn: it has a step exactly when PHASE = EXEC (R203); without one the turn passes. -/
def engineTurn (s : State) : Host.Outcome State Fault Refusal :=
  if s.phase = .exec then engineStep s else .next s

/-- One event of one agent (R15, R70). -/
def takeTurn (t : Turn) (s : State) : Host.Outcome State Fault Refusal :=
  match t with
  | .host x => hostAccess x s
  | .reset => .next (resetInput s)
  | .engine => engineTurn s
  | .respond a => respond a s

/-- The next event of the schedule, which it leaves. When nothing is scheduled the engine takes the step it has
(R211) and otherwise the block holds: in IDLE for the host's next write (R44), in WAITW for a source that has not
answered (R212). -/
def advance (s : State) : Host.Outcome State Fault Refusal :=
  match s.schedule with
  | [] => engineTurn s
  | t :: rest => takeTurn t { s with schedule := rest }

end Sys2Proof.Machine
end

