-- ==== Sys2Proof/Machine/Step.lean ====
section
/-! DEFINITION. One step of the machine: one event of the total order of spec/20_memory.md R70. -/

namespace Sys2Proof.Machine

/-- One event (R70). -/
def step (s : State) : Host.Outcome State Fault Refusal :=
  advance s

/-- `s` with the command of the table's bits placed so that the very next step runs it (log entry 4). -/
def State.withFetchWord (s : State) (nbits w : Nat) : State :=
  placeWord (tableWord nbits w) s

end Sys2Proof.Machine
end

