-- ==== Sys2Proof/Safety.lean ====
section
/-! DEFINITION. What the claims are stated in: the invariant of the machine, which turns are operations of the
hardware, and the uncut pseudocode of the Miller-Rabin rounds that a sequence of engine steps is held against. -/

namespace Sys2Proof.Safety

open Sys2Proof.Machine

/-- The Miller-Rabin rounds of a running command: those of MRTEST, 64 for PTEST, none for any other word (R175,
R193). -/
def roundsOf : Decoded → Option Nat
  | .instr (.mrtest rounds) => some rounds
  | .instr .ptest => some Config.ptestRounds
  | _ => none

/-- The working values of a Miller-Rabin command between two of its steps (R204): they are those of the candidate in
N, a round `i` below the count is begun, and PTEST has passed its small-factor check (R191). -/
structure MrRunning (s : State) : Prop where
  rounds    : ∃ rounds, roundsOf (decode s.cmdreg) = some rounds ∧ s.mr.i < rounds
  candidate : s.mr.n = s.regN
  atLeast2  : 2 ≤ s.mr.n
  split     : (s.mr.k, s.mr.m) = split2 (s.mr.n - 1)
  width     : s.mr.tb = mrTestBits s.params (bitlen s.mr.n)
  widthLow  : 2 ≤ s.mr.tb
  widthHigh : s.mr.tb ≤ s.opw
  filtered  : decode s.cmdreg = .instr .ptest → smallFactorCheck s.regN = true

/-- The invariant of the machine: a legal OPW (R6), every wide register below `2^OPW` (R21), K below `2^16` (R25),
the STATUS invariants of R45, BUSY exactly when PHASE is not IDLE (R34), RNDPEND exactly when PHASE is WAITW (R41),
CLR never accepted (R201), and the Miller-Rabin working values while they are in use (R204). -/
structure Inv (s : State) : Prop where
  legal     : s.params.Legal
  wide      : ∀ x, s.wide x < 2 ^ s.opw
  kLow      : s.regK.toNat < 2 ^ 16
  busy      : s.status.busy = true ↔ s.phase ≠ .idle
  busyAlone : s.status.busy = true → s.status.done = false ∧ s.status.err = false
  endAlone  : s.status.done = true → s.status.err = false
  errcode   : s.status.errcode = 0 ↔ s.status.err = false
  errRange  : s.status.errcode.toNat ≤ 5
  pending   : s.rndPend = true ↔ s.phase = .waitw
  noClr     : s.phase ≠ .idle → decode s.cmdreg ≠ .instr .clr
  held      : s.phase = .waitw → s.witness = none ∧ MrRunning s ∧ s.rndBits = BitVec.ofNat 16 s.mr.tb
  inHand    : ∀ a, s.witness = some a → s.phase = .exec ∧ a < 2 ^ s.opw ∧ MrRunning s

/-- A host access that is an operation of the hardware: 32 bits wide, aligned, inside the map (R63, R64). -/
abbrev AccessOk : Access → Prop
  | .read off bytes => bytes = 4 ∧ off % 4 = 0 ∧ off ≤ 0x7FFC
  | .write off bytes _ => bytes = 4 ∧ off % 4 = 0 ∧ off ≤ 0x7FFC

/-- A turn that its agent has in state `s`: a well-formed access; any reset (R260); the engine's turn; a response of
`OPW` bits to an outstanding request (R75, R100). -/
abbrev TurnOk (s : State) : Turn → Prop
  | .host x => AccessOk x
  | .reset => True
  | .engine => True
  | .respond a => s.phase = .waitw ∧ a < 2 ^ s.opw

/-- The engine moves next from `s`, and `u` is `s` once the schedule has given it the turn: either its turn is
scheduled or nothing is (R203, log entry 3). -/
def EngineNext (s u : State) : Prop :=
  (∃ rest, s.schedule = .engine :: rest ∧ u = { s with schedule := rest }) ∨ (s.schedule = [] ∧ u = s)

/-- The Miller-Rabin criterion of R178 on witness `a` of candidate `n` with `n - 1 = 2^k * m`: `a^m mod n` is 1 or
`n - 1`, or one of its `k - 1` further squares is `n - 1`. -/
def RoundPasses (n k m a : Nat) : Prop :=
  a ^ m % n = 1 ∨ a ^ m % n = n - 1 ∨ ∃ j, 1 ≤ j ∧ j < k ∧ a ^ (m * 2 ^ j) % n = n - 1

/-- How the uncut pseudocode of R175 ends. -/
inductive MrEnd where
  | verdict (v : Bool)
  | badWitness
  | waiting
  deriving DecidableEq, Repr

/-- The round loop of R175 as it stands there, uncut: `left` rounds to go on the witnesses the source answers, with
the number of witnesses it draws. -/
def mrPseudocode (n tb k m : Nat) : Nat → List Nat → MrEnd × Nat
  | 0, _ => (.verdict true, 0)
  | _ + 1, [] => (.waiting, 0)
  | left + 1, a :: rest =>
    if a < 2 ∨ 2 ^ tb ≤ a then (.badWitness, 1)
    else if (roundBody n k m a).2 then
      ((mrPseudocode n tb k m left rest).1, (mrPseudocode n tb k m left rest).2 + 1)
    else (.verdict false, 1)

/-- The schedule in which the source answers each request and the engine then moves (R204). -/
def answers (ws : List Nat) : List Turn :=
  ws.flatMap fun a => [.respond a, .engine]

end Sys2Proof.Safety
end

