-- ==== Sys2Proof/Certificates/Slice0/Obligations.lean ====
section
/-! DEFINITION. The statements for the provers, each from the numbered rules of spec/ its docstring names. -/

open Sys2Proof Sys2Proof.Machine Sys2Proof.Safety

/-! Encoding (spec/30_encoding.md). -/

/-- Decoding an encoded well-formed command gives it back (R91 to R95). -/
def Obligations.DecodeOfEncodeIsIdentity : Prop :=
  ∀ i : Instr, i.wellFormed = true → decode (encode i) = .instr i

/-- Each word has at most one meaning: a word that decodes to a command is that command's word, and the command is
well formed (R93 to R95). -/
def Obligations.EncodeOfDecodeIsIdentity : Prop :=
  ∀ (w : Word) (i : Instr), decode w = .instr i → i.wellFormed = true ∧ encode i = w

/-- R94: a word is a row's command exactly when it has the row's match bits under the row's mask. -/
def Obligations.DecodeAgreesWithOpcodeMap : Prop :=
  ∀ (w : Word) (row : OpcodeRow), row ∈ opcodeTable →
    (w &&& row.mask = row.matchBits ↔ ∃ i : Instr, decode w = .instr i ∧ i.mnemonic = row.mnemonic)

/-- The illegal words of R96: an opcode above 0x08, a Z-format opcode with a bit of 31:8 set, opcode 0x07 with a
bit of 31:24 set; and no others. -/
def Obligations.IllegalWordsAreExactlyTheReserved : Prop :=
  ∀ w : Word,
    (∃ why, decode w = .illegal why) ↔
      0x09 ≤ field w 7 0 ∨ (field w 7 0 ≤ 0x08 ∧ field w 7 0 ≠ 0x07 ∧ field w 31 8 ≠ 0) ∨
        (field w 7 0 = 0x07 ∧ field w 31 24 ≠ 0)

/-- Words written out bit by bit from R91 to R94 decode to their commands; two reserved words do not. -/
def Obligations.SampleWordsDecodeAsWritten : Prop :=
  decode 0b00000000000000000000000000000000#32 = .instr .clr ∧
  decode 0b00000000000000000000000000000001#32 = .instr .modmul ∧
  decode 0b00000000000000000000000000000010#32 = .instr .modexp ∧
  decode 0b00000000000000000000000000000100#32 = .instr .xgcd ∧
  decode 0b00000000000000000100000000000111#32 = .instr (.mrtest 64) ∧
  decode 0b00000000111111111111111100000111#32 = .instr (.mrtest 65535) ∧
  decode 0b00000000000000000000000000001000#32 = .instr .ptest ∧
  decode 0b00000001000000000000000000000111#32 = .illegal .zeroFieldI ∧
  decode 0b00000000000000000000000100000010#32 = .illegal .zeroFieldZ

/-! The step (spec/45_system.md sections 2 and 3). -/

/-- A step runs the decoded command: when the engine moves next in PHASE = EXEC and CMDREG decodes to a command
other than CLR, the step is that command's meaning (R203). -/
def Obligations.EngineStepRunsAcceptedCommand : Prop :=
  ∀ (s u : State) (i : Instr), EngineNext s u → s.phase = .exec → decode s.cmdreg = .instr i → i ≠ .clr →
    step s = exec i u

/-- R201: the CLR word written to CMD of an idle block runs CLR in that write; a write of it to a busy block is
dropped, which BUSYWR records. -/
def Obligations.ClrRunsInsideItsWrite : Prop :=
  ∀ (s : State) (w : Word) (rest : List Turn), s.schedule = .host (.write 0x000C 4 w) :: rest →
    decode w = .instr .clr →
    (s.status.busy = false → step s = exec .clr { s with schedule := rest }) ∧
    (s.status.busy = true →
      step s = .next { s with schedule := rest, status := { s.status with busywr := true } })

/-- R202: the acceptance of a word, legal or illegal, anything but CLR, all in the one host write. -/
def Obligations.AcceptanceStartsTheCommand : Prop :=
  ∀ (s : State) (w : Word) (rest : List Turn), s.schedule = .host (.write 0x000C 4 w) :: rest →
    s.status.busy = false → decode w ≠ .instr .clr →
    step s = .next { s with
      schedule := rest
      status := { s.status with done := false, err := false, errcode := 0, busy := true }
      phase := .exec
      cmdreg := w
      witness := none }

/-- R222 and R230: an accepted word that decodes to `Illegal` ends in the engine's step with code 1, and nothing
but STATUS and the sequencer changes. -/
def Obligations.IllegalWordEndsInFaultOne : Prop :=
  ∀ (s u : State) (why : Illegal), EngineNext s u → s.phase = .exec → decode s.cmdreg = .illegal why →
    step s = .next { u with
      status := { s.status with busy := false, done := false, err := true, errcode := 1 }
      phase := .idle
      rndPend := false
      witness := none }

/-- R203, R212: while the block is idle, or held in WAITW, the engine has no step, and with nothing else scheduled
the state stays as it is. -/
def Obligations.EngineHasNoStepOutsideExec : Prop :=
  ∀ s u : State, EngineNext s u → s.phase ≠ .exec → step s = .next u

/-! Host accesses (spec/20_memory.md). -/

/-- R97, R39, R67: a write to CMD or to a word of A, B, E, N while BUSY = 1 is dropped; only BUSYWR changes. -/
def Obligations.WriteWhileBusyOnlySetsBusywr : Prop :=
  ∀ (s : State) (off : Nat) (w : Word) (rest : List Turn), s.schedule = .host (.write off 4 w) :: rest →
    s.status.busy = true → s.params.Legal →
    (off = 0x000C ∨ ∃ x i, x ∈ [WideReg.A, .B, .E, .N] ∧ i < s.nw ∧ off = x.base + 4 * i) →
    step s = .next { s with schedule := rest, status := { s.status with busywr := true } }

/-- R67: a write of word `i` of A, B, E or N while BUSY = 0 gives that word its value and keeps the others, and
changes nothing else. -/
def Obligations.OperandWordWriteKeepsOtherWords : Prop :=
  ∀ (s : State) (x : WideReg) (i : Nat) (w : Word) (rest : List Turn),
    s.schedule = .host (.write (x.base + 4 * i) 4 w) :: rest →
    s.status.busy = false → s.params.Legal → x ∈ [WideReg.A, .B, .E, .N] → i < s.nw →
    ∃ v, step s = .next ({ s with schedule := rest }.setWide x v) ∧
      ∀ j, wordOf v j = if j = i then w else wordOf (s.wide x) j

/-- R98, R270: `NW` word writes, word 0 first, leave an operand register at the value written, whatever it held. -/
def Obligations.WritingAllWordsSetsTheOperand : Prop :=
  ∀ (s : State) (x : WideReg) (v : Nat) (rest : List Turn),
    s.schedule = ((List.range s.nw).map fun i => Turn.host (.write (x.base + 4 * i) 4 (wordOf v i))) ++ rest →
    s.status.busy = false → s.params.Legal → x ∈ [WideReg.A, .B, .E, .N] → s.wide x < 2 ^ s.opw →
    v < 2 ^ s.opw →
    Host.Core.run Sys2Proof.core s.nw s = .next ({ s with schedule := rest }.setWide x v)

/-- R32: CTRL takes bit 0 at any time, also while BUSY, reads back with its other bits zero, and is 0 after reset. -/
def Obligations.CtrlWriteSetsInterruptEnable : Prop :=
  (∀ p : Params, memRead (State.resetWith p) 0x0004 = 0) ∧
  ∀ (s : State) (w : Word) (rest : List Turn), s.schedule = .host (.write 0x0004 4 w) :: rest →
    step s = .next { s with schedule := rest, ie := w.getLsbD 0 } ∧
      memRead { s with schedule := rest, ie := w.getLsbD 0 } 0x0004 = w &&& 1

/-- R67: writes to PARAM, STATUS, K and the words of R, S, T change nothing, also while BUSY; BUSYWR is not set. -/
def Obligations.WritesToReadOnlyPlacesAreIgnored : Prop :=
  ∀ (s : State) (off : Nat) (w : Word) (rest : List Turn), s.schedule = .host (.write off 4 w) :: rest →
    s.params.Legal →
    (off ∈ [0x0000, 0x0008, 0x0010] ∨
      ∃ x i, x ∈ [WideReg.R, .S, .T] ∧ i < s.nw ∧ off = x.base + 4 * i) →
    step s = .next { s with schedule := rest }

/-- R65: a reserved offset reads zero and ignores writes, and never sets BUSYWR. -/
def Obligations.ReservedOffsetsReadZeroIgnoreWrites : Prop :=
  ∀ (s : State) (off : Nat) (w : Word) (rest : List Turn),
    off % 4 = 0 →
    (0x0014 ≤ off ∧ off ≤ 0x0FFC ∨ 0x1000 ≤ off ∧ off ≤ 0x7FFC ∧ 4 * s.nw ≤ off % 0x1000) →
    (s.schedule = .host (.read off 4) :: rest →
      step s = .next { s with schedule := rest, outputs := .readData off 0 :: s.outputs }) ∧
    (s.schedule = .host (.write off 4 w) :: rest → step s = .next { s with schedule := rest })

/-- R66: what a read returns at each place of the map; nothing else changes, at any time, BUSY = 1 included. -/
def Obligations.ReadReturnsTheRegister : Prop :=
  ∀ (s : State) (off : Nat) (rest : List Turn), s.schedule = .host (.read off 4) :: rest → off % 4 = 0 →
    off ≤ 0x7FFC → s.params.Legal →
    ∃ v : Word, step s = .next { s with schedule := rest, outputs := .readData off v :: s.outputs } ∧
      (off = 0x0000 → v.toNat = s.params.opw) ∧
      (off = 0x0004 → v = if s.ie then 1 else 0) ∧
      (off = 0x0008 → v = statusWord s.status) ∧
      (off = 0x000C → v = 0) ∧
      (off = 0x0010 → v = s.regK) ∧
      (∀ x i, i < s.nw → off = WideReg.base x + 4 * i → v.toNat = s.wide x / 2 ^ (32 * i) % 2 ^ 32) ∧
      (0x0014 ≤ off ∧ off ≤ 0x0FFC ∨ 0x1000 ≤ off ∧ 4 * s.nw ≤ off % 0x1000 → v = 0)

/-- R33: the layout of STATUS. -/
def Obligations.StatusWordHasItsLayout : Prop :=
  ∀ f : Status,
    (statusWord f).getLsbD 0 = f.busy ∧ (statusWord f).getLsbD 1 = f.done ∧ (statusWord f).getLsbD 2 = f.err ∧
    (statusWord f).getLsbD 3 = f.verdict ∧ (statusWord f).getLsbD 4 = f.sneg ∧
    (statusWord f).getLsbD 5 = f.tneg ∧ (statusWord f).getLsbD 6 = f.busywr ∧
    (statusWord f).getLsbD 7 = false ∧ field (statusWord f) 11 8 = f.errcode.toNat ∧
    field (statusWord f) 31 12 = 0

/-- R62: word `i` of a wide register is its bits `32*i+31 : 32*i`, and the register is the sum of its words. -/
def Obligations.WideRegisterIsTheSumOfItsWords : Prop :=
  ∀ (s : State) (x : WideReg), Inv s →
    (∀ i, (wordOf (s.wide x) i).toNat = s.wide x / 2 ^ (32 * i) % 2 ^ 32) ∧
    s.wide x = ((List.range s.nw).map fun i => (wordOf (s.wide x) i).toNat * 2 ^ (32 * i)).sum

/-- R64: an access that is not 32 bits wide, not aligned, or outside the map is refused, each by a name of its own,
and every other access is taken. -/
def Obligations.OnlyMalformedAccessesAreRefused : Prop :=
  ∀ (s : State) (off bytes : Nat) (w : Word) (rest : List Turn) (x : Access),
    (x = .read off bytes ∨ x = .write off bytes w) → s.schedule = .host x :: rest →
    (bytes ≠ 4 → step s = .refused .accessWidth) ∧
    (bytes = 4 → off % 4 ≠ 0 → step s = .refused .accessMisaligned) ∧
    (bytes = 4 → off % 4 = 0 → 0x7FFC < off → step s = .refused .accessOutside) ∧
    (bytes = 4 → off % 4 = 0 → off ≤ 0x7FFC → ∃ t, step s = .next t)

/-! Reset and the random source (spec/70_reset_and_hazards.md, spec/20_memory.md section 4). -/

/-- R44: the state right after reset, in what R44 gives a value to, for every legal parameters. -/
def Obligations.ResetStateHasTheValuesOfTheTable : Prop :=
  ∀ p : Params, p.Legal →
    (paramWord (State.resetWith p).params).toNat = p.opw ∧ ctrlWord (State.resetWith p).ie = 0 ∧
    statusWord (State.resetWith p).status = 0 ∧ field (State.resetWith p).regK 31 16 = 0 ∧
    (State.resetWith p).phase = .idle ∧ (State.resetWith p).rndPend = false ∧ (State.resetWith p).irq = false

/-- R261, R262: the reset input, in any PHASE, abandons the command: status, control and sequencer are at their reset
values, the request is withdrawn, PARAM stays; each wide register holds some value of its width. The values drawn
for them are free, and the statement holds for every one. -/
def Obligations.ResetInputAbandonsTheCommand : Prop :=
  ∀ (s : State) (rest : List Turn), s.schedule = .reset :: rest →
    ∃ t, step s = .next t ∧ t.params = s.params ∧ t.ie = false ∧ statusWord t.status = 0 ∧ t.phase = .idle ∧
      t.rndPend = false ∧ t.witness = none ∧ t.irq = false ∧ t.schedule = rest ∧ t.outputs = s.outputs ∧
      (∀ x, t.wide x < 2 ^ s.opw) ∧ t.regK.toNat < 2 ^ 16

/-- R204 "respond": a response to the outstanding request releases the engine with the witness in hand. -/
def Obligations.ResponseReleasesTheEngine : Prop :=
  ∀ (s : State) (a : Nat) (rest : List Turn), s.schedule = .respond a :: rest → s.phase = .waitw →
    a < 2 ^ s.opw →
    step s = .next { s with schedule := rest, rndPend := false, phase := .exec, witness := some a }

/-- R75, S3: a response with no request outstanding is refused, and so is one wider than OPW bits (R100). -/
def Obligations.UnaskedResponseIsRefused : Prop :=
  ∀ (s : State) (a : Nat) (rest : List Turn), s.schedule = .respond a :: rest →
    (s.phase ≠ .waitw → step s = .refused .responseWithoutRequest) ∧
    (s.phase = .waitw → 2 ^ s.opw ≤ a → step s = .refused .responseTooWide)

/-! The whole machine. -/

/-- The invariant holds right after reset, for every legal parameters. -/
def Obligations.ResetStateMeetsTheInvariant : Prop :=
  (∀ p : Params, p.Legal → Inv (State.resetWith p)) ∧ Inv State.reset

/-- Every event keeps the invariant: wide registers stay below `2^OPW`, STATUS meets R45, BUSY and RNDPEND follow
PHASE, and the Miller-Rabin working values stay those of the running command. -/
def Obligations.EveryStepKeepsTheInvariant : Prop :=
  ∀ s t : State, Inv s → step s = .next t → Inv t

/-- R220: nothing stops the machine, a fault only ends a command; what the model refuses is exactly a turn that is
no operation of the hardware (R64, R75, R100). -/
def Obligations.StepStopsOnlyOnMalformedTurns : Prop :=
  ∀ s : State, Inv s →
    (∀ f, step s ≠ .fault f) ∧
    ((∃ r, step s = .refused r) ↔ ∃ turn rest, s.schedule = turn :: rest ∧ ¬ TurnOk s turn)

/-- R22, R31: no command writes an operand register; they change only by a host write of one of their words while
BUSY = 0, or by reset, and PARAM never changes. -/
def Obligations.OperandsChangeOnlyByHostWriteOrReset : Prop :=
  ∀ s t : State, step s = .next t →
    t.params = s.params ∧
    ∀ x, x ∈ [WideReg.A, .B, .E, .N] → t.wide x ≠ s.wide x →
      (∃ rest, s.schedule = .reset :: rest) ∨
      ∃ off w rest, s.schedule = .host (.write off 4 w) :: rest ∧ s.status.busy = false ∧
        ∃ i, i < s.nw ∧ placeOf s.nw off = .word x i

/-- R23: between resets, R, S, T, K, VERDICT, SNEG and TNEG change only in an engine step that ends a command
successfully. -/
def Obligations.ResultsChangeOnlyAtCompletion : Prop :=
  ∀ s t : State, Inv s → step s = .next t → (∀ rest, s.schedule ≠ .reset :: rest) →
    (t.regR ≠ s.regR ∨ t.regS ≠ s.regS ∨ t.regT ≠ s.regT ∨ t.regK ≠ s.regK ∨
      t.status.verdict ≠ s.status.verdict ∨ t.status.sneg ≠ s.status.sneg ∨ t.status.tneg ≠ s.status.tneg) →
    s.phase = .exec ∧ t.phase = .idle ∧ t.status.done = true ∧ t.status.err = false

/-- R39: BUSYWR is sticky; only a CLR written while BUSY = 0 and reset clear it. -/
def Obligations.BusywrIsSticky : Prop :=
  ∀ s t : State, Inv s → step s = .next t → s.status.busywr = true → t.status.busywr = false →
    (∃ rest, s.schedule = .reset :: rest) ∨
    ∃ w rest, s.schedule = .host (.write 0x000C 4 w) :: rest ∧ decode w = .instr .clr ∧ s.status.busy = false

/-- R214, R45, R233: when an event ends the running command and is no reset, exactly one of DONE and ERR is set,
and the interrupt line is up exactly when CTRL.IE is set. -/
def Obligations.EndedCommandReportsDoneOrErr : Prop :=
  ∀ s t : State, Inv s → step s = .next t → (∀ rest, s.schedule ≠ .reset :: rest) → s.status.busy = true →
    t.status.busy = false → (t.status.done = !t.status.err) ∧ t.irq = t.ie ∧ t.phase = .idle

/-! Frames of the commands (spec/10_state.md R22 to R24). -/

/-- R24, the columns no command writes, and the control state: what every command leaves unchanged. -/
def Obligations.NoCommandWritesOperandsOrControl : Prop :=
  ∀ (i : Instr) (s t : State), exec i s = .next t →
    t.params = s.params ∧ t.ie = s.ie ∧ t.regA = s.regA ∧ t.regB = s.regB ∧ t.regE = s.regE ∧
    t.regN = s.regN ∧ t.cmdreg = s.cmdreg ∧ t.schedule = s.schedule ∧ t.draws = s.draws ∧
    (i ≠ .clr → t.status.busywr = s.status.busywr)

/-- R24: which command writes which result register and result flag; every other one keeps its value. -/
def Obligations.ResultsAreWrittenAsTheTableSays : Prop :=
  ∀ (i : Instr) (s t : State), exec i s = .next t →
    (i ∉ [.modmul, .modexp, .split2, .xgcd, .modinv] → t.regR = s.regR) ∧
    (i ∉ [.xgcd, .modinv] → t.regS = s.regS ∧ t.regT = s.regT ∧ t.status.sneg = s.status.sneg ∧
      t.status.tneg = s.status.tneg) ∧
    (i ≠ .split2 → t.regK = s.regK) ∧
    (i ≠ .sfcheck → i ≠ .ptest → (∀ rounds, i ≠ .mrtest rounds) → t.status.verdict = s.status.verdict)

/-- R24, the last column: only MRTEST and PTEST use the random-source port, and their working values. -/
def Obligations.OnlyMillerRabinCommandsUseThePort : Prop :=
  ∀ (i : Instr) (s t : State), exec i s = .next t → i ≠ .ptest → (∀ rounds, i ≠ .mrtest rounds) →
    t.outputs = s.outputs ∧ t.rndBits = s.rndBits ∧ t.mr = s.mr ∧ (s.rndPend = false → t.rndPend = false) ∧
    (i ≠ .modexp → t.exp = s.exp) ∧ (i ∉ [.xgcd, .modinv] → t.euclid = s.euclid)

/-- R229, R230: a command that ends in a fault changes nothing but the STATUS fields of fault entry and the
sequencer; the code is one of 2 to 5. -/
def Obligations.FaultedCommandHasNoOtherEffect : Prop :=
  ∀ (i : Instr) (s t : State), exec i s = .next t → s.status.err = false → t.status.err = true →
    t = { s with
      status := { s.status with busy := false, done := false, err := true, errcode := t.status.errcode }
      phase := .idle
      rndPend := false
      witness := none } ∧
    2 ≤ t.status.errcode.toNat ∧ t.status.errcode.toNat ≤ 5

/-- R24 as the host sees it: after a command every offset of the register space reads as before, but STATUS, the
words of R, S and T, and K, and those only for the commands whose row of R24 writes them. -/
def Obligations.OtherOffsetsReadAsBefore : Prop :=
  ∀ (i : Instr) (s t : State) (off : Nat), exec i s = .next t → memRead t off ≠ memRead s off →
    placeOf s.nw off = .status ∨
    ((∃ j, placeOf s.nw off = .word .R j) ∧ i ∈ [.modmul, .modexp, .split2, .xgcd, .modinv]) ∨
    ((∃ j, placeOf s.nw off = .word .S j ∨ placeOf s.nw off = .word .T j) ∧ i ∈ [.xgcd, .modinv]) ∨
    (placeOf s.nw off = .k ∧ i = .split2)

/-- R203: every command but CLR, MRTEST and PTEST ends in its one engine step, from every state. -/
def Obligations.SingleStepCommandsEnd : Prop :=
  ∀ (i : Instr) (s : State), i ∈ [.modmul, .modexp, .split2, .xgcd, .modinv, .sfcheck] →
    ∃ t, exec i s = .next t ∧ t.phase = .idle ∧ t.status.busy = false ∧ t.witness = none

/-! The commands. -/

/-- R200: CLR clears DONE, ERR, ERRCODE and BUSYWR and nothing else; the interrupt line falls. -/
def Obligations.ClrClearsCompletionAndErrorStatus : Prop :=
  ∀ s : State,
    ∃ t, exec .clr s = .next t ∧
      t = { s with status := { s.status with done := false, err := false, errcode := 0, busywr := false } } ∧
      t.irq = false

/-- R110: `R <- (A * B) mod N` exactly, and ERR_OPERAND (code 2) when N = 0; nothing else is written. -/
def Obligations.ModmulComputesTheProductModN : Prop :=
  ∀ s : State,
    (s.regN ≠ 0 → exec .modmul s = .next { s with
      regR := s.regA * s.regB % s.regN
      status := { s.status with busy := false, done := true }
      phase := .idle
      witness := none }) ∧
    (s.regN = 0 → exec .modmul s = .next { s with
      status := { s.status with busy := false, done := false, err := true, errcode := 2 }
      phase := .idle
      rndPend := false
      witness := none })

/-- R113: the arithmetic laws of MODMUL: R depends on A, B, N only, and is the same for exchanged factors. -/
def Obligations.ModmulLaws : Prop :=
  ∀ s : State, s.regN ≠ 0 →
    ∃ t, exec .modmul s = .next t ∧ t.regR < s.regN ∧
      (∀ s' : State, s'.regN = s.regN →
        (s'.regA = s.regA ∧ s'.regB = s.regB ∨ s'.regA = s.regB ∧ s'.regB = s.regA) →
        ∃ t', exec .modmul s' = .next t' ∧ t'.regR = t.regR) ∧
      t.regR = s.regA % s.regN * (s.regB % s.regN) % s.regN ∧
      (s.regB = 1 → t.regR = s.regA % s.regN) ∧
      (s.regA * s.regB < s.regN → t.regR = s.regA * s.regB)

/-- R120, R122: `R = A ^ E mod N` with `0 ^ 0 = 1` when N >= 2 or E >= 1; R = 1 when N = 1 and E = 0; ERR_OPERAND
(code 2) when N = 0, also when E = 0. The flags and S, T, K stay. -/
def Obligations.ModexpComputesThePower : Prop :=
  ∀ s : State,
    (s.regN ≠ 0 → ∃ w r, exec .modexp s = .next { s with
        exp := w
        regR := r
        status := { s.status with busy := false, done := true }
        phase := .idle
        witness := none } ∧
      (2 ≤ s.regN ∨ 1 ≤ s.regE → r = s.regA ^ s.regE % s.regN) ∧
      (s.regN = 1 → s.regE = 0 → r = 1)) ∧
    (s.regN = 0 → exec .modexp s = .next { s with
      status := { s.status with busy := false, done := false, err := true, errcode := 2 }
      phase := .idle
      rndPend := false
      witness := none })

/-- R129: with the key-pair invariant of R17 (distinct primes p and q, N = p * q), MODEXP by D of MODEXP by E of a
message below N gives the message back. -/
def Obligations.EncryptThenDecryptGivesTheMessage : Prop :=
  ∀ (s : State) (p q d : Nat), p.Prime → q.Prime → p ≠ q → s.regN = p * q →
    s.regE * d % ((p - 1) * (q - 1)) = 1 % ((p - 1) * (q - 1)) → s.regA < s.regN →
    ∃ t, exec .modexp s = .next t ∧
      ∃ u, exec .modexp { t with regA := t.regR, regE := d } = .next u ∧ u.regR = s.regA

/-- R135: `A = 2^K * R` with R odd, K below OPW, for A >= 1; ERR_OPERAND (code 2) when A = 0. The premise bounds A
by the register's width (R21). -/
def Obligations.Split2GivesTheOddPart : Prop :=
  ∀ s : State,
    (s.regA ≠ 0 → s.params.Legal → s.regA < 2 ^ s.opw → ∃ (k : Word) (m : Nat), exec .split2 s = .next { s with
        regK := k
        regR := m
        status := { s.status with busy := false, done := true }
        phase := .idle
        witness := none } ∧
      s.regA = 2 ^ k.toNat * m ∧ m % 2 = 1 ∧ k.toNat < s.opw ∧ m ≤ s.regA) ∧
    (s.regA = 0 → exec .split2 s = .next { s with
      status := { s.status with busy := false, done := false, err := true, errcode := 2 }
      phase := .idle
      rndPend := false
      witness := none })

/-- R145, R27: `R = gcd(A, B)` and `A * s + B * t = R`, the coefficients in sign and magnitude with zero positive,
bounded as R152 says and of opposite sign when neither is zero (R153), for B >= 1; ERR_OPERAND (code 2) when B = 0.
The premises bound A and B by the register's width (R21); within them the cap is not reached (R147). -/
def Obligations.XgcdGivesGcdAndBezoutCoefficients : Prop :=
  ∀ s : State,
    (s.regB ≠ 0 → s.params.Legal → s.regA < 2 ^ s.opw → s.regB < 2 ^ s.opw →
      ∃ (w : EuclidWork) (c d : Int), exec .xgcd s = .next { s with
          euclid := w
          regR := Nat.gcd s.regA s.regB
          regS := c.natAbs
          regT := d.natAbs
          status := { s.status with busy := false, done := true, sneg := decide (c < 0), tneg := decide (d < 0) }
          phase := .idle
          witness := none } ∧
        (s.regA : Int) * c + (s.regB : Int) * d = (Nat.gcd s.regA s.regB : Nat) ∧
        c.natAbs ≤ max 1 (s.regB / Nat.gcd s.regA s.regB) ∧
        d.natAbs ≤ max 1 (s.regA / Nat.gcd s.regA s.regB) ∧ (0 < c → d ≤ 0) ∧ (c < 0 → 0 ≤ d)) ∧
    (s.regB = 0 → exec .xgcd s = .next { s with
      status := { s.status with busy := false, done := false, err := true, errcode := 2 }
      phase := .idle
      rndPend := false
      witness := none })

/-- R149: the degenerate cases: B divides A gives (B, 0, 1) in one round; A below B and dividing it gives (A, 1, 0) in
two; A below B gives the result for the exchanged operands with `s` and `t` exchanged. The premises bound A and B by the
register's width (R21). The numbers of rounds are read from the working value `i` after completion, where R40 no
longer calls it valid: that it stays there is the model's choice (DESIGN CHOICE, log entry 10), not the spec's. -/
def Obligations.XgcdDegenerateCases : Prop :=
  ∀ s : State, s.regB ≠ 0 → s.params.Legal → s.regA < 2 ^ s.opw → s.regB < 2 ^ s.opw →
    ∃ t, exec .xgcd s = .next t ∧
      (s.regB ∣ s.regA → t.regR = s.regB ∧ t.regS = 0 ∧ t.status.sneg = false ∧ t.regT = 1 ∧
        t.status.tneg = false ∧ t.euclid.i = 1) ∧
      (1 ≤ s.regA → s.regA < s.regB → s.regA ∣ s.regB → t.regR = s.regA ∧ t.regS = 1 ∧ t.status.sneg = false ∧
        t.regT = 0 ∧ t.status.tneg = false ∧ t.euclid.i = 2) ∧
      (1 ≤ s.regA → s.regA < s.regB →
        ∃ u, exec .xgcd { s with regA := s.regB, regB := s.regA } = .next u ∧ t.regR = u.regR ∧
          t.regS = u.regT ∧ t.status.sneg = u.status.tneg ∧ t.regT = u.regS ∧ t.status.tneg = u.status.sneg)

/-- R147, R221, R224: of the two commands that raise ERR_ARITH_EXHAUSTED, XGCD and MODINV, neither ends with code 3
from a state that meets the invariant and does not hold code 3 already; one that completes has performed at most
`2 * OPW + 2` rounds. The number of rounds is read from the working value `i` after completion, where R40 no longer
calls it valid: that it stays there is the model's choice (DESIGN CHOICE, log entry 10), not the spec's. -/
def Obligations.RoundCapIsNeverReached : Prop :=
  ∀ (i : Instr) (s t : State), Inv s → i ∈ [.xgcd, .modinv] → exec i s = .next t → s.status.errcode ≠ 3 →
    t.status.errcode ≠ 3 ∧ (t.status.done = true → t.euclid.i ≤ 2 * s.opw + 2)

/-- R155: MODINV gives the inverse of A modulo N below N, and in S, T, SNEG, TNEG the raw coefficients as XGCD
gives them for A and N; code 4 when A and N are not coprime, code 2 when N = 0. The premises bound A and N by the register's width (R21). -/
def Obligations.ModinvGivesTheInverse : Prop :=
  ∀ s : State, s.params.Legal → s.regA < 2 ^ s.opw → s.regN < 2 ^ s.opw →
    (s.regN ≠ 0 → Nat.gcd s.regA s.regN = 1 →
      ∃ (w : EuclidWork) (r : Nat) (c d : Int), exec .modinv s = .next { s with
          euclid := w
          regR := r
          regS := c.natAbs
          regT := d.natAbs
          status := { s.status with busy := false, done := true, sneg := decide (c < 0), tneg := decide (d < 0) }
          phase := .idle
          witness := none } ∧
        r < s.regN ∧ s.regA * r % s.regN = 1 % s.regN ∧ (r : Int) = c % (s.regN : Int) ∧
        (s.regA : Int) * c + (s.regN : Int) * d = 1 ∧
        ∃ u, exec .xgcd { s with regB := s.regN } = .next u ∧ u.regR = 1 ∧ u.regS = c.natAbs ∧
          u.regT = d.natAbs ∧ u.status.sneg = decide (c < 0) ∧ u.status.tneg = decide (d < 0)) ∧
    (s.regN ≠ 0 → Nat.gcd s.regA s.regN ≠ 1 → exec .modinv s = .next { s with
      status := { s.status with busy := false, done := false, err := true, errcode := 4 }
      phase := .idle
      rndPend := false
      witness := none }) ∧
    (s.regN = 0 → exec .modinv s = .next { s with
      status := { s.status with busy := false, done := false, err := true, errcode := 2 }
      phase := .idle
      rndPend := false
      witness := none })

/-- R170, R171: SFCHECK's verdict is 1 exactly when no prime not above 100 divides N; it has no fault. -/
def Obligations.SfcheckTestsEveryPrimeUpTo100 : Prop :=
  ∀ s : State, ∃ v, exec .sfcheck s = .next { s with
      status := { s.status with verdict := v, busy := false, done := true }
      phase := .idle
      witness := none } ∧
    (v = true ↔ ∀ p : Nat, p.Prime → p ≤ 100 → ¬ p ∣ s.regN)

/-- R175, R176, R204 "start": with no round begun, MRTEST faults with code 2 when N < 2 or the witness width is
below 2 or above OPW; else with `rounds = 0` it completes with VERDICT = 1 and no draw, and with `rounds >= 1` it
requests its first witness and is held, the split of `N - 1` in the working values. That they stay after the
completion with `rounds = 0`, where R40 no longer calls them valid, is the model's choice (DESIGN CHOICE, log entry
10), not the spec's. -/
def Obligations.MrtestStartChecksThenDraws : Prop :=
  ∀ (s : State) (rounds tb : Nat), s.witness = none → tb = mrTestBits s.params (bitlen s.regN) →
    (s.regN < 2 ∨ tb < 2 ∨ s.opw < tb → exec (.mrtest rounds) s = .next { s with
      status := { s.status with busy := false, done := false, err := true, errcode := 2 }
      phase := .idle
      rndPend := false }) ∧
    (2 ≤ s.regN → 2 ≤ tb → tb ≤ s.opw → ∃ k m, s.regN - 1 = 2 ^ k * m ∧ m % 2 = 1 ∧
      (rounds = 0 → exec (.mrtest rounds) s = .next { s with
        mr := { n := s.regN, tb := tb, k := k, m := m, i := 0, b := s.mr.b }
        status := { s.status with verdict := true, busy := false, done := true }
        phase := .idle }) ∧
      (1 ≤ rounds → exec (.mrtest rounds) s = .next { s with
        mr := { n := s.regN, tb := tb, k := k, m := m, i := 0, b := s.mr.b }
        outputs := .rndReq (BitVec.ofNat 16 tb) :: s.outputs
        rndPend := true
        rndBits := BitVec.ofNat 16 tb
        phase := .waitw }))

/-- R182, R226: a witness outside `[2, 2^tb)` ends MRTEST and PTEST with code 5, VERDICT unchanged. -/
def Obligations.WitnessOutsideTheRangeFaults : Prop :=
  ∀ (i : Instr) (s : State) (a : Nat), (i = .ptest ∨ ∃ rounds, i = .mrtest rounds) → s.witness = some a →
    (a < 2 ∨ 2 ^ s.mr.tb ≤ a) →
    exec i s = .next { s with
      status := { s.status with busy := false, done := false, err := true, errcode := 5 }
      phase := .idle
      rndPend := false
      witness := none }

/-- R178 to R180, R204 "round": for a witness in range, the round passes exactly when `a^m mod n` is 1 or `n - 1`,
or one of its `k - 1` further squares is `n - 1`. A failed round completes with VERDICT = 0; the last passed round
completes with VERDICT = 1; any other passed round draws again. The premises are what the working values hold while
the command runs (R177). That the working values stay after a completion, where R40 no longer calls them valid, is the
model's choice (DESIGN CHOICE, log entry 10), not the spec's. -/
def Obligations.RoundVerdictIsTheMillerRabinCriterion : Prop :=
  ∀ (i : Instr) (s : State) (rounds a : Nat), roundsOf (.instr i) = some rounds → s.witness = some a → 2 ≤ a →
    a < 2 ^ s.mr.tb → 2 ≤ s.mr.n → s.mr.n - 1 = 2 ^ s.mr.k * s.mr.m → s.mr.m % 2 = 1 →
    ∃ c : Nat,
      (¬ RoundPasses s.mr.n s.mr.k s.mr.m a → exec i s = .next { s with
        mr := { s.mr with b := c }
        status := { s.status with verdict := false, busy := false, done := true }
        phase := .idle
        witness := none }) ∧
      (RoundPasses s.mr.n s.mr.k s.mr.m a → s.mr.i + 1 = rounds → exec i s = .next { s with
        mr := { s.mr with i := s.mr.i + 1, b := c }
        status := { s.status with verdict := true, busy := false, done := true }
        phase := .idle
        witness := none }) ∧
      (RoundPasses s.mr.n s.mr.k s.mr.m a → s.mr.i + 1 ≠ rounds → exec i s = .next { s with
        mr := { s.mr with i := s.mr.i + 1, b := c }
        outputs := .rndReq (BitVec.ofNat 16 s.mr.tb) :: s.outputs
        rndPend := true
        rndBits := BitVec.ofNat 16 s.mr.tb
        phase := .waitw
        witness := none })

/-- R178, R180, R182: a prime candidate is declared composite only by a witness it divides: any other witness in
range passes the round. The round index that counts it is read after the step; that it stays when the step completes
the command, where R40 no longer calls it valid, is the model's choice (DESIGN CHOICE, log entry 10), not the spec's. -/
def Obligations.PrimeCandidatePassesCoprimeWitnesses : Prop :=
  ∀ (i : Instr) (s : State) (rounds a : Nat), roundsOf (.instr i) = some rounds → s.witness = some a → 2 ≤ a →
    a < 2 ^ s.mr.tb → s.mr.n.Prime → (s.mr.k, s.mr.m) = split2 (s.mr.n - 1) → a % s.mr.n ≠ 0 →
    ∃ t, exec i s = .next t ∧ t.mr.i = s.mr.i + 1 ∧ (t.phase = .waitw ∨ t.status.verdict = true)

/-- R175, R204: the engine steps of MRTEST, each witness answered in turn, end as the uncut pseudocode does on the
same witnesses: its verdict, or ERR_WITNESS, after as many draws. -/
def Obligations.MrtestStepsFollowThePseudocode : Prop :=
  ∀ (s : State) (rounds tb k m used : Nat) (ws : List Nat) (rest : List Turn) (v : MrEnd),
    s.phase = .exec → s.witness = none → decode s.cmdreg = .instr (.mrtest rounds) →
    s.schedule = .engine :: (answers (ws.take used) ++ rest) →
    2 ≤ s.regN → tb = mrTestBits s.params (bitlen s.regN) → 2 ≤ tb → tb ≤ s.opw →
    (k, m) = split2 (s.regN - 1) → (∀ a ∈ ws, a < 2 ^ s.opw) →
    mrPseudocode s.regN tb k m rounds ws = (v, used) → v ≠ .waiting →
    ∃ t, Host.Core.run Sys2Proof.core (1 + 2 * used) s = .next t ∧ t.phase = .idle ∧ t.schedule = rest ∧
      t.outputs = List.replicate used (.rndReq (BitVec.ofNat 16 tb)) ++ s.outputs ∧
      (∀ b, v = .verdict b → t.status = { s.status with verdict := b, busy := false, done := true }) ∧
      (v = .badWitness → t.status = { s.status with busy := false, done := false, err := true, errcode := 5 })

/-- R190, R191: PTEST with no round begun: a candidate with a small factor completes at once with VERDICT = 0, no
draw and no fault. -/
def Obligations.PtestRejectsSmallFactorsWithoutADraw : Prop :=
  ∀ s : State, s.witness = none → (∃ p : Nat, p.Prime ∧ p ≤ 100 ∧ p ∣ s.regN) →
    exec .ptest s = .next { s with
      status := { s.status with verdict := false, busy := false, done := true }
      phase := .idle }

/-- R190, R193: past the small-factor check PTEST is MRTEST with 64 rounds: it faults with code 2 as MRTEST does,
and else requests its first witness. -/
def Obligations.PtestThenRunsMrtestWith64Rounds : Prop :=
  ∀ s : State, s.witness = none → (∀ p : Nat, p.Prime → p ≤ 100 → ¬ p ∣ s.regN) →
    exec .ptest s = exec (.mrtest 64) s ∧
    (2 ≤ s.regN → 2 ≤ mrTestBits s.params (bitlen s.regN) → mrTestBits s.params (bitlen s.regN) ≤ s.opw →
      ∃ t, exec .ptest s = .next t ∧ t.phase = .waitw ∧ t.rndPend = true ∧
        t.rndBits = BitVec.ofNat 16 (mrTestBits s.params (bitlen s.regN)) ∧ t.status = s.status)

/-- R192: what PTEST accepts is odd, has no prime factor up to 100, and is not below 101. -/
def Obligations.PtestAcceptsNoCandidateWithASmallFactor : Prop :=
  ∀ s t : State, Inv s → s.phase = .exec → decode s.cmdreg = .instr .ptest → exec .ptest s = .next t →
    t.status.done = true → t.status.verdict = true →
    s.regN % 2 = 1 ∧ 101 ≤ s.regN ∧ ∀ p : Nat, p.Prime → p ≤ 100 → ¬ p ∣ s.regN
end

