-- ==== Sys2Proof/Laws/Arith.lean ====
section
/-! SUPPORT. What the command functions compute: bit length, square-and-multiply, the power-of-two split, the
squaring loop, the small-factor check, and the extended-Euclidean loop. -/

namespace Sys2Proof.Machine

/-! Bit length (R8). -/

theorem lt_two_pow_bitlen (v : Nat) : v < 2 ^ bitlen v := by
  unfold bitlen
  split
  · simp_all
  · exact Nat.lt_log2_self

theorem bitlen_le_of_lt {v w : Nat} (h : v < 2 ^ w) : bitlen v ≤ w := by
  unfold bitlen
  split
  · exact Nat.zero_le _
  · exact (Nat.log2_lt ‹_›).2 h

theorem bitlen_half (v : Nat) : bitlen (v / 2) = bitlen v - 1 := by
  apply Nat.le_antisymm
  · apply bitlen_le_of_lt
    have := lt_two_pow_bitlen v
    rcases Nat.eq_zero_or_pos (bitlen v) with h | h
    · rw [h] at this ⊢; simp at this ⊢; omega
    · obtain ⟨k, hk⟩ : ∃ k, bitlen v = k + 1 := ⟨_, (Nat.sub_add_cancel h).symm⟩
      rw [hk] at this ⊢; rw [Nat.pow_succ] at this; simp; omega
  · have h := lt_two_pow_bitlen (v / 2)
    have : bitlen v ≤ bitlen (v / 2) + 1 := bitlen_le_of_lt (by rw [Nat.pow_succ]; omega)
    omega

theorem bitlen_pos {v : Nat} (h : v ≠ 0) : 0 < bitlen v := by
  simp [bitlen, h]

/-! Square-and-multiply (R120). -/

/-- The loop keeps `r * b ^ e` modulo `n`, and ends with `e = 0` when it may run `bitlen e` times (R123). -/
theorem expLoop_spec (n fuel : Nat) (w : ExpWork) (h : bitlen w.e ≤ fuel) :
    (expLoop n fuel w).e = 0 ∧ (expLoop n fuel w).r % n = w.r * w.b ^ w.e % n := by
  induction fuel generalizing w with
  | zero =>
    have : w.e = 0 := by
      by_contra hne
      have := bitlen_pos hne
      omega
    simp [expLoop, this]
  | succ fuel ih =>
    unfold expLoop
    split
    · rename_i he; simp [he]
    · have hb : bitlen (expBody n w).e ≤ fuel := by
        show bitlen (w.e / 2) ≤ fuel
        rw [bitlen_half]; omega
      refine ⟨(ih _ hb).1, ?_⟩
      rw [(ih _ hb).2]
      have he : w.e = 2 * (w.e / 2) + w.e % 2 := (Nat.div_add_mod _ _).symm
      generalize hq : w.e / 2 = q at *
      have hmod : w.e % 2 = 0 ∨ w.e % 2 = 1 := by omega
      show (if w.e % 2 = 1 then modMul w.r w.b n else w.r) * (modMul w.b w.b n) ^ (w.e / 2) % n = _
      rw [hq]
      conv_rhs => rw [he, pow_add, pow_mul]
      have hsq : modMul w.b w.b n ^ q % n = (w.b ^ 2) ^ q % n := by
        rw [modMul, ← Nat.pow_mod, sq]
      rcases hmod with h0 | h1
      · rw [if_neg (by omega), Nat.mul_mod, hsq, ← Nat.mul_mod, h0]; simp
      · rw [if_pos h1, Nat.mul_mod, hsq, modMul, Nat.mod_mod, ← Nat.mul_mod, h1]
        ring_nf

/-- After one body on an exponent of 1 or more the accumulator is below the modulus or still 1, and the loop's
last multiplication, by the exponent's top bit, reduces it. -/
theorem expLoop_reduced (n fuel : Nat) (w : ExpWork) (h : bitlen w.e ≤ fuel) (he : w.e ≠ 0) (hn : n ≠ 0) :
    (expLoop n fuel w).r < n := by
  induction fuel generalizing w with
  | zero => have := bitlen_pos he; omega
  | succ fuel ih =>
    unfold expLoop
    rw [if_neg he]
    have hb : bitlen (expBody n w).e ≤ fuel := by
      show bitlen (w.e / 2) ≤ fuel
      rw [bitlen_half]; omega
    by_cases h2 : (expBody n w).e = 0
    · have h1 : w.e = 1 := by
        have : w.e / 2 = 0 := h2
        omega
      have hr : (expBody n w).r < n := by
        show (if w.e % 2 = 1 then modMul w.r w.b n else w.r) < n
        rw [h1]; exact Nat.mod_lt _ (Nat.pos_of_ne_zero hn)
      cases fuel with
      | zero => exact hr
      | succ f => unfold expLoop; rw [if_pos h2]; exact hr
    · exact ih _ hb h2

/-- `modpow(b, e, n)` is `b ^ e mod n` with `0 ^ 0 = 1`, for `n >= 2` or `e >= 1` (R120). -/
theorem modPow_eq (b e n : Nat) (hn : n ≠ 0) (h : 2 ≤ n ∨ 1 ≤ e) : modPow b e n = b ^ e % n := by
  have hs := (expLoop_spec n (bitlen e) (expStart b e) (Nat.le_refl _)).2
  have hs : modPow b e n % n = b ^ e % n := by simpa [expStart, modPow, expRun] using hs
  by_cases he : e = 0
  · subst he
    have : modPow b 0 n = 1 := rfl
    rw [this] at *; simpa using (Nat.mod_eq_of_lt (by omega : 1 < n)).symm
  · have hlt := expLoop_reduced n (bitlen e) (expStart b e) (Nat.le_refl _) he hn
    rw [← hs]; exact (Nat.mod_eq_of_lt hlt).symm

/-- Exponent 0 gives 1, unreduced (R122). -/
theorem modPow_zero (b n : Nat) : modPow b 0 n = 1 := rfl

/-- The result is below the modulus, or is the 1 of exponent 0 (R122). -/
theorem modPow_le (b e n : Nat) (hn : n ≠ 0) : modPow b e n < n ∨ modPow b e n = 1 := by
  by_cases he : e = 0
  · right; subst he; rfl
  · left
    rw [modPow_eq b e n hn (.inr (Nat.pos_of_ne_zero he))]
    exact Nat.mod_lt _ (Nat.pos_of_ne_zero hn)

/-! The power-of-two split (R135). -/

theorem splitLoop_spec (fuel k n : Nat) (hn : n ≠ 0) (h : bitlen n ≤ fuel) :
    k ≤ (splitLoop fuel k n).1 ∧ (splitLoop fuel k n).1 < k + bitlen n ∧ (splitLoop fuel k n).2 % 2 = 1 ∧
      2 ^ k * n = 2 ^ (splitLoop fuel k n).1 * (splitLoop fuel k n).2 := by
  induction fuel generalizing k n with
  | zero => have := bitlen_pos hn; omega
  | succ fuel ih =>
    unfold splitLoop
    split
    · rename_i he
      have hn2 : n / 2 ≠ 0 := by omega
      have hb : bitlen (n / 2) ≤ fuel := by rw [bitlen_half]; omega
      obtain ⟨h1, h2, h3, h4⟩ := ih (k + 1) (n / 2) hn2 hb
      refine ⟨by omega, ?_, h3, ?_⟩
      · have := bitlen_pos hn
        rw [bitlen_half] at h2; omega
      · rw [← h4, Nat.pow_succ, Nat.mul_assoc]; congr 1; omega
    · exact ⟨Nat.le_refl _, by have := bitlen_pos hn; omega, by omega, rfl⟩

/-- `n = 2^k * m` with `m` odd and `k < bitlen n` (R135, R137). -/
theorem split2_spec (n : Nat) (hn : n ≠ 0) :
    n = 2 ^ (split2 n).1 * (split2 n).2 ∧ (split2 n).2 % 2 = 1 ∧ (split2 n).1 < bitlen n := by
  obtain ⟨-, h2, h3, h4⟩ := splitLoop_spec (bitlen n) 0 n hn (Nat.le_refl _)
  exact ⟨by simpa [split2] using h4, h3, by simpa [split2] using h2⟩

/-! The small-factor check (R170, R171). -/

/-- The list holds the primes not above 100 and nothing else. -/
theorem mem_smallPrimes (p : Nat) : p ∈ smallPrimes ↔ p.Prime ∧ p ≤ 100 := by
  constructor
  · intro h
    fin_cases h <;> exact ⟨by norm_num, by norm_num⟩
  · rintro ⟨hp, hle⟩
    revert hp
    interval_cases p <;> first | (intro; decide) | (intro h; exact absurd h (by norm_num))

theorem smallFactorCheck_iff (n : Nat) :
    smallFactorCheck n = true ↔ ∀ p : Nat, p.Prime → p ≤ 100 → ¬ p ∣ n := by
  simp only [smallFactorCheck, List.all_eq_true, mem_smallPrimes, bne_iff_ne, ne_eq, and_imp,
    Nat.dvd_iff_mod_eq_zero]

/-! The squaring loop (R175). -/

/-- The loop finds `n - 1` exactly when one of the next `left` squarings of `b` modulo `n` gives it (R179). -/
theorem squareLoop_found (n left b : Nat) :
    (squareLoop n left b).2 = true ↔ ∃ j, 1 ≤ j ∧ j ≤ left ∧ b ^ 2 ^ j % n = n - 1 := by
  induction left generalizing b with
  | zero => simp only [squareLoop]; constructor
            · simp
            · rintro ⟨j, h1, h2, -⟩; omega
  | succ left ih =>
    have hpow : ∀ j, (b * b % n) ^ 2 ^ j % n = b ^ 2 ^ (j + 1) % n := by
      intro j; rw [← Nat.pow_mod, ← sq, ← pow_mul, pow_succ' 2 j]
    unfold squareLoop
    split
    · rename_i h
      refine iff_of_true rfl ⟨1, Nat.le_refl _, by omega, ?_⟩
      simpa [modMul, sq] using h
    · rename_i h
      rw [ih]
      constructor
      · rintro ⟨j, h1, h2, h3⟩
        exact ⟨j + 1, by omega, by omega, by rw [← hpow j]; exact h3⟩
      · rintro ⟨j, h1, h2, h3⟩
        obtain ⟨j, rfl⟩ : ∃ i, j = i + 1 := ⟨j - 1, by omega⟩
        rcases Nat.eq_zero_or_pos j with rfl | hj
        · exact absurd (by simpa [modMul, sq] using h3) h
        · exact ⟨j, hj, by omega, by rw [modMul, hpow j]; exact h3⟩

/-! The extended-Euclidean loop (R146). -/

/-- What the loop keeps: the two Bezout identities; coefficients of alternating sign whose magnitudes satisfy
`a*|s1| + b*|s0| = b0` and `a*|t1| + b*|t0| = a0` (the bound of R152); the gcd; and, while `a` is 0 as in
`xgcd(0, b0)`, the starting coefficients. -/
structure EuclidInv (a0 b0 : Nat) (w : EuclidWork) : Prop where
  bPos  : w.b ≠ 0
  left  : (w.a : Int) = a0 * w.s0 + b0 * w.t0
  right : (w.b : Int) = a0 * w.s1 + b0 * w.t1
  signS : (0 ≤ w.s0 ∧ w.s1 ≤ 0) ∨ (w.s0 ≤ 0 ∧ 0 ≤ w.s1)
  signT : (0 ≤ w.t0 ∧ w.t1 ≤ 0) ∨ (w.t0 ≤ 0 ∧ 0 ≤ w.t1)
  sumS  : (w.a : Int) * |w.s1| + w.b * |w.s0| = b0
  sumT  : (w.a : Int) * |w.t1| + w.b * |w.t0| = a0
  gcd   : Nat.gcd w.a w.b = Nat.gcd a0 b0
  aZero : w.a = 0 → w.s1 = 0 ∧ w.t1 = 1

theorem euclidStart_inv (a0 b0 : Nat) (h : b0 ≠ 0) : EuclidInv a0 b0 (euclidStart a0 b0) := by
  constructor <;> simp [euclidStart, h]

theorem euclidSwap_inv {a0 b0 : Nat} {w : EuclidWork} (h : EuclidInv a0 b0 w) (hr : w.a % w.b ≠ 0) :
    EuclidInv a0 b0 (euclidSwap w) := by
  have hdm : (w.a : Int) = w.b * (w.a / w.b : Nat) + (w.a % w.b : Nat) := by
    exact_mod_cast (Nat.div_add_mod w.a w.b).symm
  have hq : (0 : Int) ≤ (w.a / w.b : Nat) := Int.natCast_nonneg _
  have habs : ∀ {x y q : Int}, 0 ≤ q → (0 ≤ x ∧ y ≤ 0) ∨ (x ≤ 0 ∧ 0 ≤ y) → |x - q * y| = |x| + q * |y| := by
    rintro x y q hq (⟨hx, hy⟩ | ⟨hx, hy⟩)
    · rw [abs_of_nonneg hx, abs_of_nonpos hy, abs_of_nonneg (by nlinarith)]; ring
    · rw [abs_of_nonpos hx, abs_of_nonneg hy, abs_of_nonpos (by nlinarith)]; ring
  have hflip : ∀ {x y q : Int}, 0 ≤ q → (0 ≤ x ∧ y ≤ 0) ∨ (x ≤ 0 ∧ 0 ≤ y) →
      (0 ≤ y ∧ x - q * y ≤ 0) ∨ (y ≤ 0 ∧ 0 ≤ x - q * y) := by
    rintro x y q hq (⟨hx, hy⟩ | ⟨hx, hy⟩)
    · exact .inr ⟨hy, by nlinarith⟩
    · exact .inl ⟨hy, by nlinarith⟩
  constructor
  · exact hr
  · exact h.right
  · simp only [euclidSwap]
    linear_combination h.left - (w.a / w.b : Nat) * h.right - hdm
  · exact hflip hq h.signS
  · exact hflip hq h.signT
  · simp only [euclidSwap]
    rw [habs hq h.signS]
    linear_combination h.sumS - |w.s1| * hdm
  · simp only [euclidSwap]
    rw [habs hq h.signT]
    linear_combination h.sumT - |w.t1| * hdm
  · simp only [euclidSwap]
    rw [← h.gcd, Nat.gcd_comm w.a, Nat.gcd_rec w.b w.a, Nat.gcd_comm]
  · exact fun h0 => absurd h0 h.bPos

/-- What a finished loop answers: an invariant state whose remainder is 0. -/
theorem euclidLoop_done {a0 b0 left : Nat} {w v : EuclidWork} (h : EuclidInv a0 b0 w)
    (hl : euclidLoop left w = some v) : EuclidInv a0 b0 v ∧ v.a % v.b = 0 := by
  induction left generalizing w with
  | zero => simp [euclidLoop] at hl
  | succ left ih =>
    unfold euclidLoop at hl
    split at hl
    · rename_i hr
      cases hl
      exact ⟨⟨h.bPos, h.left, h.right, h.signS, h.signT, h.sumS, h.sumT, h.gcd, h.aZero⟩, hr⟩
    · rename_i hr
      exact ih (euclidSwap_inv h hr) hl

/-- The loop ends within `2 * c + 1` rounds when `b < 2^c`: two rounds halve `b`. -/
theorem euclidLoop_ends (c left : Nat) (w : EuclidWork) (hb : w.b ≠ 0) (hc : w.b < 2 ^ c)
    (hl : 2 * c + 1 ≤ left) : ∃ v, euclidLoop left w = some v ∧ v.i ≤ w.i + (2 * c + 1) := by
  induction c generalizing left w with
  | zero => simp at hc; omega
  | succ c ih =>
    obtain ⟨l, rfl⟩ : ∃ l, left = l + 2 := ⟨left - 2, by omega⟩
    unfold euclidLoop
    split
    · exact ⟨_, rfl, by show w.i + 1 ≤ _; omega⟩
    · rename_i h1
      unfold euclidLoop
      split
      · exact ⟨_, rfl, by show w.i + 1 + 1 ≤ _; omega⟩
      · rename_i h2
        have hb' : (euclidSwap (euclidSwap w)).b = w.b % (w.a % w.b) := rfl
        have hlt : w.b % (w.a % w.b) < 2 ^ c := by
          have h3 : w.a % w.b < w.b := Nat.mod_lt _ (Nat.pos_of_ne_zero hb)
          have h4 : w.b % (w.a % w.b) < w.a % w.b := Nat.mod_lt _ (Nat.pos_of_ne_zero h1)
          have h5 : w.a % w.b + w.b % (w.a % w.b) ≤ w.b := by
            have := Nat.div_add_mod w.b (w.a % w.b)
            have h6 : 1 ≤ w.b / (w.a % w.b) := Nat.div_pos h3.le (Nat.pos_of_ne_zero h1)
            nlinarith
          rw [Nat.pow_succ] at hc; omega
        obtain ⟨v, hv, hi⟩ := ih l (euclidSwap (euclidSwap w)) h2 (hb' ▸ hlt) (by omega)
        exact ⟨v, hv, by have : v.i ≤ w.i + 1 + 1 + (2 * c + 1) := hi; omega⟩

/-- More rounds left change nothing once the loop ends. -/
theorem euclidLoop_mono {left left' : Nat} {w v : EuclidWork} (h : euclidLoop left w = some v) (hle : left ≤ left') :
    euclidLoop left' w = some v := by
  induction left generalizing left' w with
  | zero => simp [euclidLoop] at h
  | succ left ih =>
    obtain ⟨l, rfl⟩ : ∃ l, left' = l + 1 := ⟨left' - 1, by omega⟩
    unfold euclidLoop at h ⊢
    split
    · rename_i hr; rwa [if_pos hr] at h
    · rename_i hr; rw [if_neg hr] at h; exact ih h (by omega)

/-- `xgcd(a0, b0)` for `b0 >= 1` below `2^c`, `c` any legal OPW: it answers the gcd with its Bezout coefficients,
bounded as R152 says and of opposite sign (R153), well within the cap (R147). -/
theorem xgcd_spec (a0 b0 c : Nat) (hb : b0 ≠ 0) (hlt : b0 < 2 ^ c) (hc : c ≤ 32768) :
    ∃ w, xgcd a0 b0 = some w ∧ w.b = Nat.gcd a0 b0 ∧ (a0 : Int) * w.s1 + b0 * w.t1 = w.b ∧
      w.s1.natAbs ≤ max 1 (b0 / w.b) ∧ w.t1.natAbs ≤ max 1 (a0 / w.b) ∧
      (0 < w.s1 → w.t1 ≤ 0) ∧ (w.s1 < 0 → 0 ≤ w.t1) ∧ w.i ≤ 2 * c + 1 := by
  obtain ⟨w, hw, hi⟩ := euclidLoop_ends c Config.xgcdCap (euclidStart a0 b0) hb hlt
    (by simp only [Config.xgcdCap]; omega)
  obtain ⟨hinv, hr⟩ := euclidLoop_done (euclidStart_inv a0 b0 hb) hw
  have hg : w.b = Nat.gcd a0 b0 := by
    rw [← hinv.gcd, Nat.gcd_comm, Nat.gcd_eq_left (Nat.dvd_of_mod_eq_zero hr)]
  have hdvd : w.b ∣ w.a := Nat.dvd_of_mod_eq_zero hr
  have hbound : ∀ {x y : Int} {m : Nat}, 1 ≤ w.a → (w.a : Int) * |x| + w.b * |y| = m → x.natAbs ≤ m / w.b := by
    intro x y m ha h
    have h1 := mul_nonneg (Int.natCast_nonneg w.b) (abs_nonneg y)
    have h2 : (w.b : Int) ≤ w.a := by exact_mod_cast Nat.le_of_dvd ha hdvd
    have h3 : |x| * w.b ≤ m := by nlinarith [abs_nonneg x]
    rw [Int.abs_eq_natAbs] at h3
    exact (Nat.le_div_iff_mul_le (Nat.pos_of_ne_zero hinv.bPos)).2 (by exact_mod_cast h3)
  have hbpos : (0 : Int) < w.b := by exact_mod_cast Nat.pos_of_ne_zero hinv.bPos
  have hle : (w.b : Int) ≤ b0 := by
    exact_mod_cast hg ▸ Nat.gcd_le_right a0 (Nat.pos_of_ne_zero hb)
  have hzero : a0 = 0 → w.s1 = 0 := by
    rintro rfl
    refine (hinv.aZero ?_).1
    have hT := hinv.sumT
    have hR := hinv.right
    by_contra ha
    have h1 : (0 : Int) < w.a := by exact_mod_cast Nat.pos_of_ne_zero ha
    have h2 : w.t1 = 0 := by
      by_contra hne
      have := mul_pos h1 (abs_pos.2 hne)
      have := mul_nonneg hbpos.le (abs_nonneg w.t0)
      push_cast at hT
      linarith
    rw [h2] at hR; simp at hR; exact hinv.bPos hR
  refine ⟨w, hw, hg, hinv.right.symm, ?_, ?_, ?_, ?_, by simpa [euclidStart] using hi⟩
  · rcases Nat.eq_zero_or_pos w.a with ha | ha
    · rw [(hinv.aZero ha).1]; simp
    · exact (hbound ha hinv.sumS).trans (le_max_right _ _)
  · rcases Nat.eq_zero_or_pos w.a with ha | ha
    · rw [(hinv.aZero ha).2]; simp
    · exact (hbound ha hinv.sumT).trans (le_max_right _ _)
  · intro hs
    by_contra ht
    have ha : (1 : Int) ≤ a0 := by
      by_contra h
      have : a0 = 0 := by omega
      rw [hzero this] at hs; omega
    nlinarith [hinv.right]
  · intro hs
    by_contra ht
    have ha : (0 : Int) ≤ a0 := Int.natCast_nonneg _
    have hb' : (0 : Int) ≤ b0 := Int.natCast_nonneg _
    nlinarith [hinv.right]

/-- The magnitudes fit the registers they are written to (R27). -/
theorem xgcd_magnitudes_fit {a0 b0 c : Nat} {w : EuclidWork} (hb : b0 ≠ 0) (ha : a0 < 2 ^ c) (hlt : b0 < 2 ^ c)
    (hpos : 0 < c) (hc : c ≤ 32768) (hw : xgcd a0 b0 = some w) :
    w.b < 2 ^ c ∧ magnitude w.s1 < 2 ^ c ∧ magnitude w.t1 < 2 ^ c := by
  obtain ⟨v, hv, hg, -, hs, ht, -, -, -⟩ := xgcd_spec a0 b0 c hb hlt hc
  rw [hw] at hv; cases hv
  have one : 1 < 2 ^ c := Nat.one_lt_two_pow (by omega)
  have hfit : ∀ m, m < 2 ^ c → max 1 (m / w.b) < 2 ^ c := fun m hm =>
    max_lt one (lt_of_le_of_lt (Nat.div_le_self _ _) hm)
  refine ⟨?_, lt_of_le_of_lt hs (hfit _ hlt), lt_of_le_of_lt ht (hfit _ ha)⟩
  rw [hg]; exact lt_of_le_of_lt (Nat.gcd_le_right _ (Nat.pos_of_ne_zero hb)) hlt

end Sys2Proof.Machine
end

