-- ==== Sys2Proof/Laws/Decode.lean ====
section
/-! SUPPORT. The encoding: fields, the rows of the opcode map, and what the encoder writes. -/

namespace Sys2Proof

theorem field_lt (w : Word) (hi lo : Nat) : field w hi lo < 2 ^ (hi + 1 - lo) :=
  Nat.mod_lt _ (Nat.two_pow_pos _)

/-- No word matches two rows: any two rows differ in a bit that both masks cover (R94). -/
theorem opcodeTable_disjoint :
    opcodeTable.Pairwise fun p q => (p.matchBits ^^^ q.matchBits) &&& p.mask &&& q.mask ≠ 0 := by
  decide

/-- A row's match bits lie under its mask (R94). -/
theorem opcodeTable_match_under_mask : ∀ row ∈ opcodeTable, row.matchBits &&& row.mask = row.matchBits := by
  decide

/-- The Z-format commands have no immediate, and their opcode is the one they were found under (R91, R94). -/
theorem zCommand_inv {n : Nat} {i : Instr} (h : zCommand n = some i) :
    i.opcode = n ∧ i.imm16 = 0 ∧ i.wellFormed = true ∧ n ≤ 8 ∧ n ≠ 7 := by
  unfold zCommand at h
  split at h <;> simp at h <;> subst h <;> simp [Instr.opcode, Instr.imm16, Instr.wellFormed]

/-- The number a well-formed command's word is: opcode plus the immediate in bits 23:8 (R91, R92). -/
theorem encode_toNat {i : Instr} (h : i.wellFormed = true) : (encode i).toNat = i.opcode + i.imm16 * 256 := by
  cases i <;> simp [encode, Instr.opcode, Instr.imm16, Instr.wellFormed] at *
  omega

end Sys2Proof
end

