-- ==== Sys2Proof/Laws/PerInstr.lean ====
section
/-! SUPPORT. Per-command families (LAWS.json): one lemma for each constructor of Instr. -/

namespace Sys2Proof.Laws.OpcodeByte

/-- Bits 7:0 of a well-formed command's word are its opcode, and bits 31:24 are zero (R91, R92). -/
def Statement (i : Instr) : Prop :=
  i.wellFormed = true → field (encode i) 7 0 = i.opcode ∧ field (encode i) 31 24 = 0

theorem clr : Statement .clr := fun _ => by decide
theorem modmul : Statement .modmul := fun _ => by decide
theorem modexp : Statement .modexp := fun _ => by decide
theorem split2 : Statement .split2 := fun _ => by decide
theorem xgcd : Statement .xgcd := fun _ => by decide
theorem modinv : Statement .modinv := fun _ => by decide
theorem sfcheck : Statement .sfcheck := fun _ => by decide

theorem mrtest (rounds : Nat) : Statement (.mrtest rounds) := by
  intro h
  have hn := encode_toNat h
  simp only [Instr.opcode, Instr.imm16, Instr.wellFormed, decide_eq_true_eq] at h hn
  simp only [field, hn, Instr.opcode]
  norm_num
  omega

theorem ptest : Statement .ptest := fun _ => by decide

end Sys2Proof.Laws.OpcodeByte
end

