-- ==== Sys2Proof/Laws/State.lean ====
section
/-! SUPPORT. The small lemmas of State: each shared operation of Machine/Ops.lean, field by field, and the wide
registers' read-after-write laws. -/

namespace Sys2Proof.Machine

@[simp] theorem accept_params (w : Word) (s : State) : (accept w s).params = s.params := rfl
@[simp] theorem accept_ie (w : Word) (s : State) : (accept w s).ie = s.ie := rfl
@[simp] theorem accept_status (w : Word) (s : State) : (accept w s).status = s.status.accepted := rfl
@[simp] theorem accept_regA (w : Word) (s : State) : (accept w s).regA = s.regA := rfl
@[simp] theorem accept_regB (w : Word) (s : State) : (accept w s).regB = s.regB := rfl
@[simp] theorem accept_regE (w : Word) (s : State) : (accept w s).regE = s.regE := rfl
@[simp] theorem accept_regN (w : Word) (s : State) : (accept w s).regN = s.regN := rfl
@[simp] theorem accept_regR (w : Word) (s : State) : (accept w s).regR = s.regR := rfl
@[simp] theorem accept_regS (w : Word) (s : State) : (accept w s).regS = s.regS := rfl
@[simp] theorem accept_regT (w : Word) (s : State) : (accept w s).regT = s.regT := rfl
@[simp] theorem accept_regK (w : Word) (s : State) : (accept w s).regK = s.regK := rfl
@[simp] theorem accept_phase (w : Word) (s : State) : (accept w s).phase = .exec := rfl
@[simp] theorem accept_cmdreg (w : Word) (s : State) : (accept w s).cmdreg = w := rfl
@[simp] theorem accept_exp (w : Word) (s : State) : (accept w s).exp = s.exp := rfl
@[simp] theorem accept_euclid (w : Word) (s : State) : (accept w s).euclid = s.euclid := rfl
@[simp] theorem accept_mr (w : Word) (s : State) : (accept w s).mr = s.mr := rfl
@[simp] theorem accept_witness (w : Word) (s : State) : (accept w s).witness = none := rfl
@[simp] theorem accept_rndPend (w : Word) (s : State) : (accept w s).rndPend = s.rndPend := rfl
@[simp] theorem accept_rndBits (w : Word) (s : State) : (accept w s).rndBits = s.rndBits := rfl
@[simp] theorem accept_schedule (w : Word) (s : State) : (accept w s).schedule = s.schedule := rfl
@[simp] theorem accept_outputs (w : Word) (s : State) : (accept w s).outputs = s.outputs := rfl
@[simp] theorem accept_draws (w : Word) (s : State) : (accept w s).draws = s.draws := rfl

@[simp] theorem complete_params (s : State) : (complete s).params = s.params := rfl
@[simp] theorem complete_ie (s : State) : (complete s).ie = s.ie := rfl
@[simp] theorem complete_status (s : State) : (complete s).status = s.status.completed := rfl
@[simp] theorem complete_regA (s : State) : (complete s).regA = s.regA := rfl
@[simp] theorem complete_regB (s : State) : (complete s).regB = s.regB := rfl
@[simp] theorem complete_regE (s : State) : (complete s).regE = s.regE := rfl
@[simp] theorem complete_regN (s : State) : (complete s).regN = s.regN := rfl
@[simp] theorem complete_regR (s : State) : (complete s).regR = s.regR := rfl
@[simp] theorem complete_regS (s : State) : (complete s).regS = s.regS := rfl
@[simp] theorem complete_regT (s : State) : (complete s).regT = s.regT := rfl
@[simp] theorem complete_regK (s : State) : (complete s).regK = s.regK := rfl
@[simp] theorem complete_phase (s : State) : (complete s).phase = .idle := rfl
@[simp] theorem complete_cmdreg (s : State) : (complete s).cmdreg = s.cmdreg := rfl
@[simp] theorem complete_exp (s : State) : (complete s).exp = s.exp := rfl
@[simp] theorem complete_euclid (s : State) : (complete s).euclid = s.euclid := rfl
@[simp] theorem complete_mr (s : State) : (complete s).mr = s.mr := rfl
@[simp] theorem complete_witness (s : State) : (complete s).witness = none := rfl
@[simp] theorem complete_rndPend (s : State) : (complete s).rndPend = s.rndPend := rfl
@[simp] theorem complete_rndBits (s : State) : (complete s).rndBits = s.rndBits := rfl
@[simp] theorem complete_schedule (s : State) : (complete s).schedule = s.schedule := rfl
@[simp] theorem complete_outputs (s : State) : (complete s).outputs = s.outputs := rfl
@[simp] theorem complete_draws (s : State) : (complete s).draws = s.draws := rfl

@[simp] theorem raiseFault_params (c : FaultCode) (s : State) : (raiseFault c s).params = s.params := rfl
@[simp] theorem raiseFault_ie (c : FaultCode) (s : State) : (raiseFault c s).ie = s.ie := rfl
@[simp] theorem raiseFault_status (c : FaultCode) (s : State) : (raiseFault c s).status = s.status.faulted c := rfl
@[simp] theorem raiseFault_regA (c : FaultCode) (s : State) : (raiseFault c s).regA = s.regA := rfl
@[simp] theorem raiseFault_regB (c : FaultCode) (s : State) : (raiseFault c s).regB = s.regB := rfl
@[simp] theorem raiseFault_regE (c : FaultCode) (s : State) : (raiseFault c s).regE = s.regE := rfl
@[simp] theorem raiseFault_regN (c : FaultCode) (s : State) : (raiseFault c s).regN = s.regN := rfl
@[simp] theorem raiseFault_regR (c : FaultCode) (s : State) : (raiseFault c s).regR = s.regR := rfl
@[simp] theorem raiseFault_regS (c : FaultCode) (s : State) : (raiseFault c s).regS = s.regS := rfl
@[simp] theorem raiseFault_regT (c : FaultCode) (s : State) : (raiseFault c s).regT = s.regT := rfl
@[simp] theorem raiseFault_regK (c : FaultCode) (s : State) : (raiseFault c s).regK = s.regK := rfl
@[simp] theorem raiseFault_phase (c : FaultCode) (s : State) : (raiseFault c s).phase = .idle := rfl
@[simp] theorem raiseFault_cmdreg (c : FaultCode) (s : State) : (raiseFault c s).cmdreg = s.cmdreg := rfl
@[simp] theorem raiseFault_exp (c : FaultCode) (s : State) : (raiseFault c s).exp = s.exp := rfl
@[simp] theorem raiseFault_euclid (c : FaultCode) (s : State) : (raiseFault c s).euclid = s.euclid := rfl
@[simp] theorem raiseFault_mr (c : FaultCode) (s : State) : (raiseFault c s).mr = s.mr := rfl
@[simp] theorem raiseFault_witness (c : FaultCode) (s : State) : (raiseFault c s).witness = none := rfl
@[simp] theorem raiseFault_rndPend (c : FaultCode) (s : State) : (raiseFault c s).rndPend = false := rfl
@[simp] theorem raiseFault_rndBits (c : FaultCode) (s : State) : (raiseFault c s).rndBits = s.rndBits := rfl
@[simp] theorem raiseFault_schedule (c : FaultCode) (s : State) : (raiseFault c s).schedule = s.schedule := rfl
@[simp] theorem raiseFault_outputs (c : FaultCode) (s : State) : (raiseFault c s).outputs = s.outputs := rfl
@[simp] theorem raiseFault_draws (c : FaultCode) (s : State) : (raiseFault c s).draws = s.draws := rfl

@[simp] theorem clearStatus_params (s : State) : (clearStatus s).params = s.params := rfl
@[simp] theorem clearStatus_ie (s : State) : (clearStatus s).ie = s.ie := rfl
@[simp] theorem clearStatus_status (s : State) : (clearStatus s).status = s.status.cleared := rfl
@[simp] theorem clearStatus_regA (s : State) : (clearStatus s).regA = s.regA := rfl
@[simp] theorem clearStatus_regB (s : State) : (clearStatus s).regB = s.regB := rfl
@[simp] theorem clearStatus_regE (s : State) : (clearStatus s).regE = s.regE := rfl
@[simp] theorem clearStatus_regN (s : State) : (clearStatus s).regN = s.regN := rfl
@[simp] theorem clearStatus_regR (s : State) : (clearStatus s).regR = s.regR := rfl
@[simp] theorem clearStatus_regS (s : State) : (clearStatus s).regS = s.regS := rfl
@[simp] theorem clearStatus_regT (s : State) : (clearStatus s).regT = s.regT := rfl
@[simp] theorem clearStatus_regK (s : State) : (clearStatus s).regK = s.regK := rfl
@[simp] theorem clearStatus_phase (s : State) : (clearStatus s).phase = s.phase := rfl
@[simp] theorem clearStatus_cmdreg (s : State) : (clearStatus s).cmdreg = s.cmdreg := rfl
@[simp] theorem clearStatus_exp (s : State) : (clearStatus s).exp = s.exp := rfl
@[simp] theorem clearStatus_euclid (s : State) : (clearStatus s).euclid = s.euclid := rfl
@[simp] theorem clearStatus_mr (s : State) : (clearStatus s).mr = s.mr := rfl
@[simp] theorem clearStatus_witness (s : State) : (clearStatus s).witness = s.witness := rfl
@[simp] theorem clearStatus_rndPend (s : State) : (clearStatus s).rndPend = s.rndPend := rfl
@[simp] theorem clearStatus_rndBits (s : State) : (clearStatus s).rndBits = s.rndBits := rfl
@[simp] theorem clearStatus_schedule (s : State) : (clearStatus s).schedule = s.schedule := rfl
@[simp] theorem clearStatus_outputs (s : State) : (clearStatus s).outputs = s.outputs := rfl
@[simp] theorem clearStatus_draws (s : State) : (clearStatus s).draws = s.draws := rfl

@[simp] theorem requestWitness_params (tb : Nat) (s : State) : (requestWitness tb s).params = s.params := rfl
@[simp] theorem requestWitness_ie (tb : Nat) (s : State) : (requestWitness tb s).ie = s.ie := rfl
@[simp] theorem requestWitness_status (tb : Nat) (s : State) : (requestWitness tb s).status = s.status := rfl
@[simp] theorem requestWitness_regA (tb : Nat) (s : State) : (requestWitness tb s).regA = s.regA := rfl
@[simp] theorem requestWitness_regB (tb : Nat) (s : State) : (requestWitness tb s).regB = s.regB := rfl
@[simp] theorem requestWitness_regE (tb : Nat) (s : State) : (requestWitness tb s).regE = s.regE := rfl
@[simp] theorem requestWitness_regN (tb : Nat) (s : State) : (requestWitness tb s).regN = s.regN := rfl
@[simp] theorem requestWitness_regR (tb : Nat) (s : State) : (requestWitness tb s).regR = s.regR := rfl
@[simp] theorem requestWitness_regS (tb : Nat) (s : State) : (requestWitness tb s).regS = s.regS := rfl
@[simp] theorem requestWitness_regT (tb : Nat) (s : State) : (requestWitness tb s).regT = s.regT := rfl
@[simp] theorem requestWitness_regK (tb : Nat) (s : State) : (requestWitness tb s).regK = s.regK := rfl
@[simp] theorem requestWitness_phase (tb : Nat) (s : State) : (requestWitness tb s).phase = .waitw := rfl
@[simp] theorem requestWitness_cmdreg (tb : Nat) (s : State) : (requestWitness tb s).cmdreg = s.cmdreg := rfl
@[simp] theorem requestWitness_exp (tb : Nat) (s : State) : (requestWitness tb s).exp = s.exp := rfl
@[simp] theorem requestWitness_euclid (tb : Nat) (s : State) : (requestWitness tb s).euclid = s.euclid := rfl
@[simp] theorem requestWitness_mr (tb : Nat) (s : State) : (requestWitness tb s).mr = s.mr := rfl
@[simp] theorem requestWitness_witness (tb : Nat) (s : State) : (requestWitness tb s).witness = none := rfl
@[simp] theorem requestWitness_rndPend (tb : Nat) (s : State) : (requestWitness tb s).rndPend = true := rfl
@[simp] theorem requestWitness_rndBits (tb : Nat) (s : State) :
    (requestWitness tb s).rndBits = BitVec.ofNat 16 tb := rfl
@[simp] theorem requestWitness_schedule (tb : Nat) (s : State) : (requestWitness tb s).schedule = s.schedule := rfl
@[simp] theorem requestWitness_outputs (tb : Nat) (s : State) :
    (requestWitness tb s).outputs = .rndReq (BitVec.ofNat 16 tb) :: s.outputs := rfl
@[simp] theorem requestWitness_draws (tb : Nat) (s : State) : (requestWitness tb s).draws = s.draws := rfl

@[simp] theorem completeVerdict_params (v : Bool) (s : State) : (completeVerdict v s).params = s.params := rfl
@[simp] theorem completeVerdict_ie (v : Bool) (s : State) : (completeVerdict v s).ie = s.ie := rfl
@[simp] theorem completeVerdict_status (v : Bool) (s : State) :
    (completeVerdict v s).status = Status.completed { s.status with verdict := v } := rfl
@[simp] theorem completeVerdict_regA (v : Bool) (s : State) : (completeVerdict v s).regA = s.regA := rfl
@[simp] theorem completeVerdict_regB (v : Bool) (s : State) : (completeVerdict v s).regB = s.regB := rfl
@[simp] theorem completeVerdict_regE (v : Bool) (s : State) : (completeVerdict v s).regE = s.regE := rfl
@[simp] theorem completeVerdict_regN (v : Bool) (s : State) : (completeVerdict v s).regN = s.regN := rfl
@[simp] theorem completeVerdict_regR (v : Bool) (s : State) : (completeVerdict v s).regR = s.regR := rfl
@[simp] theorem completeVerdict_regS (v : Bool) (s : State) : (completeVerdict v s).regS = s.regS := rfl
@[simp] theorem completeVerdict_regT (v : Bool) (s : State) : (completeVerdict v s).regT = s.regT := rfl
@[simp] theorem completeVerdict_regK (v : Bool) (s : State) : (completeVerdict v s).regK = s.regK := rfl
@[simp] theorem completeVerdict_phase (v : Bool) (s : State) : (completeVerdict v s).phase = .idle := rfl
@[simp] theorem completeVerdict_cmdreg (v : Bool) (s : State) : (completeVerdict v s).cmdreg = s.cmdreg := rfl
@[simp] theorem completeVerdict_exp (v : Bool) (s : State) : (completeVerdict v s).exp = s.exp := rfl
@[simp] theorem completeVerdict_euclid (v : Bool) (s : State) : (completeVerdict v s).euclid = s.euclid := rfl
@[simp] theorem completeVerdict_mr (v : Bool) (s : State) : (completeVerdict v s).mr = s.mr := rfl
@[simp] theorem completeVerdict_witness (v : Bool) (s : State) : (completeVerdict v s).witness = none := rfl
@[simp] theorem completeVerdict_rndPend (v : Bool) (s : State) : (completeVerdict v s).rndPend = s.rndPend := rfl
@[simp] theorem completeVerdict_rndBits (v : Bool) (s : State) : (completeVerdict v s).rndBits = s.rndBits := rfl
@[simp] theorem completeVerdict_schedule (v : Bool) (s : State) : (completeVerdict v s).schedule = s.schedule := rfl
@[simp] theorem completeVerdict_outputs (v : Bool) (s : State) : (completeVerdict v s).outputs = s.outputs := rfl
@[simp] theorem completeVerdict_draws (v : Bool) (s : State) : (completeVerdict v s).draws = s.draws := rfl

@[simp] theorem writeBezout_params (g : Nat) (c d : Int) (s : State) : (writeBezout g c d s).params = s.params := rfl
@[simp] theorem writeBezout_ie (g : Nat) (c d : Int) (s : State) : (writeBezout g c d s).ie = s.ie := rfl
@[simp] theorem writeBezout_status (g : Nat) (c d : Int) (s : State) :
    (writeBezout g c d s).status = { s.status with sneg := signFlag c, tneg := signFlag d } := rfl
@[simp] theorem writeBezout_regA (g : Nat) (c d : Int) (s : State) : (writeBezout g c d s).regA = s.regA := rfl
@[simp] theorem writeBezout_regB (g : Nat) (c d : Int) (s : State) : (writeBezout g c d s).regB = s.regB := rfl
@[simp] theorem writeBezout_regE (g : Nat) (c d : Int) (s : State) : (writeBezout g c d s).regE = s.regE := rfl
@[simp] theorem writeBezout_regN (g : Nat) (c d : Int) (s : State) : (writeBezout g c d s).regN = s.regN := rfl
@[simp] theorem writeBezout_regR (g : Nat) (c d : Int) (s : State) : (writeBezout g c d s).regR = g := rfl
@[simp] theorem writeBezout_regS (g : Nat) (c d : Int) (s : State) : (writeBezout g c d s).regS = magnitude c := rfl
@[simp] theorem writeBezout_regT (g : Nat) (c d : Int) (s : State) : (writeBezout g c d s).regT = magnitude d := rfl
@[simp] theorem writeBezout_regK (g : Nat) (c d : Int) (s : State) : (writeBezout g c d s).regK = s.regK := rfl
@[simp] theorem writeBezout_phase (g : Nat) (c d : Int) (s : State) : (writeBezout g c d s).phase = s.phase := rfl
@[simp] theorem writeBezout_cmdreg (g : Nat) (c d : Int) (s : State) : (writeBezout g c d s).cmdreg = s.cmdreg := rfl
@[simp] theorem writeBezout_exp (g : Nat) (c d : Int) (s : State) : (writeBezout g c d s).exp = s.exp := rfl
@[simp] theorem writeBezout_euclid (g : Nat) (c d : Int) (s : State) : (writeBezout g c d s).euclid = s.euclid := rfl
@[simp] theorem writeBezout_mr (g : Nat) (c d : Int) (s : State) : (writeBezout g c d s).mr = s.mr := rfl
@[simp] theorem writeBezout_witness (g : Nat) (c d : Int) (s : State) :
    (writeBezout g c d s).witness = s.witness := rfl
@[simp] theorem writeBezout_rndPend (g : Nat) (c d : Int) (s : State) :
    (writeBezout g c d s).rndPend = s.rndPend := rfl
@[simp] theorem writeBezout_rndBits (g : Nat) (c d : Int) (s : State) :
    (writeBezout g c d s).rndBits = s.rndBits := rfl
@[simp] theorem writeBezout_schedule (g : Nat) (c d : Int) (s : State) :
    (writeBezout g c d s).schedule = s.schedule := rfl
@[simp] theorem writeBezout_outputs (g : Nat) (c d : Int) (s : State) :
    (writeBezout g c d s).outputs = s.outputs := rfl
@[simp] theorem writeBezout_draws (g : Nat) (c d : Int) (s : State) : (writeBezout g c d s).draws = s.draws := rfl

@[simp] theorem dropWrite_params (s : State) : (dropWrite s).params = s.params := rfl
@[simp] theorem dropWrite_ie (s : State) : (dropWrite s).ie = s.ie := rfl
@[simp] theorem dropWrite_status (s : State) : (dropWrite s).status = { s.status with busywr := true } := rfl
@[simp] theorem dropWrite_regA (s : State) : (dropWrite s).regA = s.regA := rfl
@[simp] theorem dropWrite_regB (s : State) : (dropWrite s).regB = s.regB := rfl
@[simp] theorem dropWrite_regE (s : State) : (dropWrite s).regE = s.regE := rfl
@[simp] theorem dropWrite_regN (s : State) : (dropWrite s).regN = s.regN := rfl
@[simp] theorem dropWrite_regR (s : State) : (dropWrite s).regR = s.regR := rfl
@[simp] theorem dropWrite_regS (s : State) : (dropWrite s).regS = s.regS := rfl
@[simp] theorem dropWrite_regT (s : State) : (dropWrite s).regT = s.regT := rfl
@[simp] theorem dropWrite_regK (s : State) : (dropWrite s).regK = s.regK := rfl
@[simp] theorem dropWrite_phase (s : State) : (dropWrite s).phase = s.phase := rfl
@[simp] theorem dropWrite_cmdreg (s : State) : (dropWrite s).cmdreg = s.cmdreg := rfl
@[simp] theorem dropWrite_exp (s : State) : (dropWrite s).exp = s.exp := rfl
@[simp] theorem dropWrite_euclid (s : State) : (dropWrite s).euclid = s.euclid := rfl
@[simp] theorem dropWrite_mr (s : State) : (dropWrite s).mr = s.mr := rfl
@[simp] theorem dropWrite_witness (s : State) : (dropWrite s).witness = s.witness := rfl
@[simp] theorem dropWrite_rndPend (s : State) : (dropWrite s).rndPend = s.rndPend := rfl
@[simp] theorem dropWrite_rndBits (s : State) : (dropWrite s).rndBits = s.rndBits := rfl
@[simp] theorem dropWrite_schedule (s : State) : (dropWrite s).schedule = s.schedule := rfl
@[simp] theorem dropWrite_outputs (s : State) : (dropWrite s).outputs = s.outputs := rfl
@[simp] theorem dropWrite_draws (s : State) : (dropWrite s).draws = s.draws := rfl

@[simp] theorem resetInput_params (s : State) : (resetInput s).params = s.params := rfl
@[simp] theorem resetInput_ie (s : State) : (resetInput s).ie = false := rfl
@[simp] theorem resetInput_status (s : State) : (resetInput s).status = Status.reset := rfl
@[simp] theorem resetInput_regA (s : State) : (resetInput s).regA = Config.freeWide (s.draws) % 2 ^ s.opw := rfl
@[simp] theorem resetInput_regB (s : State) : (resetInput s).regB = Config.freeWide (s.draws + 1) % 2 ^ s.opw := rfl
@[simp] theorem resetInput_regE (s : State) : (resetInput s).regE = Config.freeWide (s.draws + 2) % 2 ^ s.opw := rfl
@[simp] theorem resetInput_regN (s : State) : (resetInput s).regN = Config.freeWide (s.draws + 3) % 2 ^ s.opw := rfl
@[simp] theorem resetInput_regR (s : State) : (resetInput s).regR = Config.freeWide (s.draws + 4) % 2 ^ s.opw := rfl
@[simp] theorem resetInput_regS (s : State) : (resetInput s).regS = Config.freeWide (s.draws + 5) % 2 ^ s.opw := rfl
@[simp] theorem resetInput_regT (s : State) : (resetInput s).regT = Config.freeWide (s.draws + 6) % 2 ^ s.opw := rfl
@[simp] theorem resetInput_regK (s : State) : (resetInput s).regK = (Config.freeHalf s.draws).setWidth 32 := rfl
@[simp] theorem resetInput_phase (s : State) : (resetInput s).phase = .idle := rfl
@[simp] theorem resetInput_cmdreg (s : State) : (resetInput s).cmdreg = 0 := rfl
@[simp] theorem resetInput_exp (s : State) : (resetInput s).exp = { r := 0, b := 0, e := 0 } := rfl
@[simp] theorem resetInput_euclid (s : State) :
    (resetInput s).euclid = { a := 0, b := 0, s0 := 0, s1 := 0, t0 := 0, t1 := 0, i := 0 } := rfl
@[simp] theorem resetInput_mr (s : State) :
    (resetInput s).mr = { n := 0, tb := 0, k := 0, m := 0, i := 0, b := 0 } := rfl
@[simp] theorem resetInput_witness (s : State) : (resetInput s).witness = none := rfl
@[simp] theorem resetInput_rndPend (s : State) : (resetInput s).rndPend = false := rfl
@[simp] theorem resetInput_rndBits (s : State) : (resetInput s).rndBits = 0 := rfl
@[simp] theorem resetInput_schedule (s : State) : (resetInput s).schedule = s.schedule := rfl
@[simp] theorem resetInput_outputs (s : State) : (resetInput s).outputs = s.outputs := rfl
@[simp] theorem resetInput_draws (s : State) : (resetInput s).draws = s.draws + 7 := rfl

@[simp] theorem setWide_params (s : State) (x : WideReg) (v : Nat) : (s.setWide x v).params = s.params := by
  cases x <;> rfl
@[simp] theorem setWide_ie (s : State) (x : WideReg) (v : Nat) : (s.setWide x v).ie = s.ie := by
  cases x <;> rfl
@[simp] theorem setWide_status (s : State) (x : WideReg) (v : Nat) : (s.setWide x v).status = s.status := by
  cases x <;> rfl
@[simp] theorem setWide_regK (s : State) (x : WideReg) (v : Nat) : (s.setWide x v).regK = s.regK := by
  cases x <;> rfl
@[simp] theorem setWide_phase (s : State) (x : WideReg) (v : Nat) : (s.setWide x v).phase = s.phase := by
  cases x <;> rfl
@[simp] theorem setWide_cmdreg (s : State) (x : WideReg) (v : Nat) : (s.setWide x v).cmdreg = s.cmdreg := by
  cases x <;> rfl
@[simp] theorem setWide_exp (s : State) (x : WideReg) (v : Nat) : (s.setWide x v).exp = s.exp := by
  cases x <;> rfl
@[simp] theorem setWide_euclid (s : State) (x : WideReg) (v : Nat) : (s.setWide x v).euclid = s.euclid := by
  cases x <;> rfl
@[simp] theorem setWide_mr (s : State) (x : WideReg) (v : Nat) : (s.setWide x v).mr = s.mr := by
  cases x <;> rfl
@[simp] theorem setWide_witness (s : State) (x : WideReg) (v : Nat) : (s.setWide x v).witness = s.witness := by
  cases x <;> rfl
@[simp] theorem setWide_rndPend (s : State) (x : WideReg) (v : Nat) : (s.setWide x v).rndPend = s.rndPend := by
  cases x <;> rfl
@[simp] theorem setWide_rndBits (s : State) (x : WideReg) (v : Nat) : (s.setWide x v).rndBits = s.rndBits := by
  cases x <;> rfl
@[simp] theorem setWide_schedule (s : State) (x : WideReg) (v : Nat) : (s.setWide x v).schedule = s.schedule := by
  cases x <;> rfl
@[simp] theorem setWide_outputs (s : State) (x : WideReg) (v : Nat) : (s.setWide x v).outputs = s.outputs := by
  cases x <;> rfl
@[simp] theorem setWide_draws (s : State) (x : WideReg) (v : Nat) : (s.setWide x v).draws = s.draws := by
  cases x <;> rfl

/-- A wide register read after a write: the value written, or what another register held. -/
@[simp] theorem wide_setWide (s : State) (x y : WideReg) (v : Nat) :
    (s.setWide x v).wide y = if y = x then v else s.wide y := by
  cases x <;> cases y <;> rfl

/-- `OPW` and `NW` depend on the parameters alone. -/
theorem opw_congr {s t : State} (h : t.params = s.params) : t.opw = s.opw := by
  simp [State.opw, h]

theorem nw_congr {s t : State} (h : t.params = s.params) : t.nw = s.nw := by
  simp [State.nw, h]

/-! STATUS, update by update. -/

@[simp] theorem Status.accepted_busy (f : Status) : f.accepted.busy = true := rfl
@[simp] theorem Status.accepted_done (f : Status) : f.accepted.done = false := rfl
@[simp] theorem Status.accepted_err (f : Status) : f.accepted.err = false := rfl
@[simp] theorem Status.accepted_verdict (f : Status) : f.accepted.verdict = f.verdict := rfl
@[simp] theorem Status.accepted_sneg (f : Status) : f.accepted.sneg = f.sneg := rfl
@[simp] theorem Status.accepted_tneg (f : Status) : f.accepted.tneg = f.tneg := rfl
@[simp] theorem Status.accepted_busywr (f : Status) : f.accepted.busywr = f.busywr := rfl
@[simp] theorem Status.accepted_errcode (f : Status) : f.accepted.errcode = 0 := rfl

@[simp] theorem Status.completed_busy (f : Status) : f.completed.busy = false := rfl
@[simp] theorem Status.completed_done (f : Status) : f.completed.done = true := rfl
@[simp] theorem Status.completed_err (f : Status) : f.completed.err = f.err := rfl
@[simp] theorem Status.completed_verdict (f : Status) : f.completed.verdict = f.verdict := rfl
@[simp] theorem Status.completed_sneg (f : Status) : f.completed.sneg = f.sneg := rfl
@[simp] theorem Status.completed_tneg (f : Status) : f.completed.tneg = f.tneg := rfl
@[simp] theorem Status.completed_busywr (f : Status) : f.completed.busywr = f.busywr := rfl
@[simp] theorem Status.completed_errcode (f : Status) : f.completed.errcode = f.errcode := rfl

@[simp] theorem Status.faulted_busy (f : Status) (c : FaultCode) : (f.faulted c).busy = false := rfl
@[simp] theorem Status.faulted_done (f : Status) (c : FaultCode) : (f.faulted c).done = false := rfl
@[simp] theorem Status.faulted_err (f : Status) (c : FaultCode) : (f.faulted c).err = true := rfl
@[simp] theorem Status.faulted_verdict (f : Status) (c : FaultCode) : (f.faulted c).verdict = f.verdict := rfl
@[simp] theorem Status.faulted_sneg (f : Status) (c : FaultCode) : (f.faulted c).sneg = f.sneg := rfl
@[simp] theorem Status.faulted_tneg (f : Status) (c : FaultCode) : (f.faulted c).tneg = f.tneg := rfl
@[simp] theorem Status.faulted_busywr (f : Status) (c : FaultCode) : (f.faulted c).busywr = f.busywr := rfl
@[simp] theorem Status.faulted_errcode (f : Status) (c : FaultCode) : (f.faulted c).errcode = c.code := rfl

@[simp] theorem Status.cleared_busy (f : Status) : f.cleared.busy = f.busy := rfl
@[simp] theorem Status.cleared_done (f : Status) : f.cleared.done = false := rfl
@[simp] theorem Status.cleared_err (f : Status) : f.cleared.err = false := rfl
@[simp] theorem Status.cleared_verdict (f : Status) : f.cleared.verdict = f.verdict := rfl
@[simp] theorem Status.cleared_sneg (f : Status) : f.cleared.sneg = f.sneg := rfl
@[simp] theorem Status.cleared_tneg (f : Status) : f.cleared.tneg = f.tneg := rfl
@[simp] theorem Status.cleared_busywr (f : Status) : f.cleared.busywr = false := rfl
@[simp] theorem Status.cleared_errcode (f : Status) : f.cleared.errcode = 0 := rfl

end Sys2Proof.Machine
end

