-- ==== Sys2Proof/Laws/Words.lean ====
section
/-! SUPPORT. The register space: words of a wide value, the register map, and which accesses are refused. -/

namespace Sys2Proof.Machine

/-! Words of a wide value (R62, R67). -/

theorem toNat_wordOf (v i : Nat) : (wordOf v i).toNat = v / 2 ^ (32 * i) % 2 ^ 32 := by
  simp [wordOf]

/-- Three stacked fields, of sizes `p`, `w` and the rest: each is read back. -/
theorem stacked_fields {lo p v w : Nat} (hi : Nat) (hl : lo < p) (hv : v < w) :
    (lo + v * p + hi * (w * p)) % p = lo ∧ (lo + v * p + hi * (w * p)) / p % w = v ∧
      (lo + v * p + hi * (w * p)) / (w * p) = hi ∧ lo + v * p < w * p := by
  have hp : 0 < p := by omega
  have h4 : lo + v * p < w * p := by
    have : (v + 1) * p ≤ w * p := Nat.mul_le_mul_right _ hv
    rw [Nat.add_mul] at this; omega
  refine ⟨?_, ?_, ?_, h4⟩
  · rw [← mul_assoc, Nat.add_mul_mod_self_right, Nat.add_mul_mod_self_right, Nat.mod_eq_of_lt hl]
  · rw [← mul_assoc, Nat.add_mul_div_right _ _ hp, Nat.add_mul_div_right _ _ hp, Nat.div_eq_of_lt hl,
      Nat.zero_add, Nat.add_mul_mod_self_right, Nat.mod_eq_of_lt hv]
  · rw [Nat.add_mul_div_right _ _ (by omega), Nat.div_eq_of_lt h4, Nat.zero_add]

theorem pow_word_succ (i : Nat) : 2 ^ (32 * (i + 1)) = 2 ^ 32 * 2 ^ (32 * i) := by
  rw [← pow_add]; congr 1; ring

theorem pow_word_add (i d : Nat) : 2 ^ (32 * (i + d)) = 2 ^ (32 * i) * 2 ^ (32 * d) := by
  rw [← pow_add]; congr 1; ring

/-- A value with word `i` replaced, by its parts: below word `i` and above it as before, `w` in it. -/
theorem setWordOf_parts (v i : Nat) (w : Word) :
    setWordOf v i w % 2 ^ (32 * i) = v % 2 ^ (32 * i) ∧ setWordOf v i w / 2 ^ (32 * i) % 2 ^ 32 = w.toNat ∧
      setWordOf v i w / 2 ^ (32 * (i + 1)) = v / 2 ^ (32 * (i + 1)) := by
  have h := stacked_fields (v / 2 ^ (32 * (i + 1))) (Nat.mod_lt v (Nat.two_pow_pos (32 * i))) w.isLt
  rw [← pow_word_succ] at h
  exact ⟨h.1, h.2.1, h.2.2.1⟩

/-- A word write keeps a value inside `32 * nw` bits. -/
theorem setWordOf_lt {v i nw : Nat} (w : Word) (hv : v < 2 ^ (32 * nw)) (hi : i < nw) :
    setWordOf v i w < 2 ^ (32 * nw) := by
  obtain ⟨d, rfl⟩ : ∃ d, nw = i + 1 + d := ⟨nw - (i + 1), by omega⟩
  have h := (setWordOf_parts v i w).2.2
  rw [pow_word_add, mul_comm] at hv ⊢
  rw [← Nat.div_lt_iff_lt_mul (Nat.two_pow_pos _)] at hv ⊢
  rw [h]; exact hv

/-- Read after write of one word: word `i` is the value written, every other word is kept (R67). -/
theorem wordOf_setWordOf (v i j : Nat) (w : Word) :
    wordOf (setWordOf v i w) j = if j = i then w else wordOf v j := by
  obtain ⟨hlow, hmid, hhigh⟩ := setWordOf_parts v i w
  apply BitVec.eq_of_toNat_eq
  rw [toNat_wordOf]
  rcases Nat.lt_trichotomy j i with h | rfl | h
  · rw [if_neg (by omega), toNat_wordOf]
    obtain ⟨d, rfl⟩ : ∃ d, i = j + 1 + d := ⟨i - (j + 1), by omega⟩
    have key : ∀ x : Nat, x / 2 ^ (32 * j) % 2 ^ 32 = x % 2 ^ (32 * (j + 1 + d)) / 2 ^ (32 * j) % 2 ^ 32 := by
      intro x
      rw [pow_word_add, pow_word_succ, mul_comm (2 ^ 32), mul_assoc, Nat.mod_mul_right_div_self,
        Nat.mod_mul_right_mod]
    rw [key, hlow, ← key]
  · rw [if_pos rfl, hmid]
  · rw [if_neg (by omega), toNat_wordOf]
    obtain ⟨d, rfl⟩ : ∃ d, j = i + 1 + d := ⟨j - (i + 1), by omega⟩
    rw [pow_word_add, ← Nat.div_div_eq_div_mul, hhigh, Nat.div_div_eq_div_mul]

/-! The register map (R61). -/

theorem placeOf_low {nw off : Nat} (h : off < 0x1000) : placeOf nw off = lowPlace off := by
  have : off / 0x1000 = 0 := by omega
  simp [placeOf, this, windowReg]

@[simp] theorem placeOf_cmd (nw : Nat) : placeOf nw 0x000C = .cmd := rfl
@[simp] theorem placeOf_ctrl (nw : Nat) : placeOf nw 0x0004 = .ctrl := rfl
@[simp] theorem placeOf_param (nw : Nat) : placeOf nw 0x0000 = .param := rfl
@[simp] theorem placeOf_status (nw : Nat) : placeOf nw 0x0008 = .status := rfl
@[simp] theorem placeOf_k (nw : Nat) : placeOf nw 0x0010 = .k := rfl

/-- Word `i` of a wide register stands at its base plus `4 * i` (R61). -/
theorem placeOf_word {nw i : Nat} (x : WideReg) (hi : i < nw) (hnw : nw ≤ 1024) :
    placeOf nw (x.base + 4 * i) = .word x i := by
  have hdiv : (x.base + 4 * i) / 0x1000 = x.base / 0x1000 := by cases x <;> simp only [WideReg.base] <;> omega
  have hmod : (x.base + 4 * i) % 0x1000 / 4 = i := by cases x <;> simp only [WideReg.base] <;> omega
  have hw : windowReg (x.base / 0x1000) = some x := by cases x <;> rfl
  simp only [placeOf, hdiv, hmod, hw, if_pos hi]

/-- CMD stands at one offset only. -/
theorem placeOf_eq_cmd {nw off : Nat} (h : placeOf nw off = .cmd) : off = 0x000C := by
  unfold placeOf at h
  split at h
  · split at h <;> simp at h
  · unfold lowPlace at h
    split at h <;> first | rfl | simp at h

/-- A word place names a word the instance has. -/
theorem placeOf_eq_word {nw off i : Nat} {x : WideReg} (h : placeOf nw off = .word x i) : i < nw := by
  unfold placeOf at h
  split at h
  · split at h
    · cases h; assumption
    · simp at h
  · unfold lowPlace at h
    split at h <;> simp at h

/-- NW is at most 1024 for a legal OPW, and OPW is `32 * NW` (R6). -/
theorem nw_le {s : State} (h : s.params.Legal) : s.nw ≤ 1024 := by
  have := h.2.2; unfold State.nw; omega

theorem opw_eq {s : State} (h : s.params.Legal) : s.opw = 32 * s.nw := by
  have := h.1; unfold State.opw State.nw; omega

/-! Refused accesses (R64). -/

theorem accessRefusal_none {off bytes : Nat} :
    accessRefusal off bytes = none ↔ bytes = 4 ∧ off % 4 = 0 ∧ off ≤ 0x7FFC := by
  unfold accessRefusal
  split
  · simp; intro h; contradiction
  · split
    · simp; intro _ h; contradiction
    · split
      · simp; omega
      · simp; omega

end Sys2Proof.Machine
end

