-- ==== Sys2Proof/Laws/Steps.lean ====
section
/-! SUPPORT. Inversion: everything each command, each host access and one step can do, said once. -/

namespace Sys2Proof.Machine

open Sys2Proof.Safety

/-! The commands. -/

theorem execModmul_cases (s : State) :
    (s.regN = 0 ∧ execModmul s = .next (raiseFault .operand s)) ∨
    (s.regN ≠ 0 ∧ execModmul s = .next (complete { s with regR := s.regA * s.regB % s.regN })) := by
  unfold execModmul
  split
  · exact .inl ⟨‹_›, rfl⟩
  · exact .inr ⟨‹_›, rfl⟩

theorem execModexp_cases (s : State) :
    (s.regN = 0 ∧ execModexp s = .next (raiseFault .operand s)) ∨
    (s.regN ≠ 0 ∧ ∃ w, execModexp s =
      .next (complete { s with exp := w, regR := modPow s.regA s.regE s.regN })) := by
  unfold execModexp
  split
  · exact .inl ⟨‹_›, rfl⟩
  · exact .inr ⟨‹_›, _, rfl⟩

theorem execSplit2_cases (s : State) :
    (s.regA = 0 ∧ execSplit2 s = .next (raiseFault .operand s)) ∨
    (s.regA ≠ 0 ∧ execSplit2 s =
      .next (complete { s with regK := BitVec.ofNat 32 (split2 s.regA).1, regR := (split2 s.regA).2 })) := by
  unfold execSplit2
  split
  · exact .inl ⟨‹_›, rfl⟩
  · exact .inr ⟨‹_›, rfl⟩

theorem execXgcd_cases (s : State) :
    (s.regB = 0 ∧ execXgcd s = .next (raiseFault .operand s)) ∨
    (s.regB ≠ 0 ∧ xgcd s.regA s.regB = none ∧ execXgcd s = .next (raiseFault .arithExhausted s)) ∨
    (s.regB ≠ 0 ∧ ∃ w, xgcd s.regA s.regB = some w ∧
      execXgcd s = .next (complete (writeBezout w.b w.s1 w.t1 { s with euclid := w }))) := by
  unfold execXgcd
  split
  · exact .inl ⟨‹_›, rfl⟩
  · split
    · exact .inr (.inl ⟨‹_›, ‹_›, rfl⟩)
    · exact .inr (.inr ⟨‹_›, _, ‹_›, rfl⟩)

theorem execModinv_cases (s : State) :
    (s.regN = 0 ∧ execModinv s = .next (raiseFault .operand s)) ∨
    (s.regN ≠ 0 ∧ xgcd s.regA s.regN = none ∧ execModinv s = .next (raiseFault .arithExhausted s)) ∨
    (s.regN ≠ 0 ∧ ∃ w, xgcd s.regA s.regN = some w ∧ w.b ≠ 1 ∧
      execModinv s = .next (raiseFault .notCoprime s)) ∨
    (s.regN ≠ 0 ∧ ∃ w, xgcd s.regA s.regN = some w ∧ w.b = 1 ∧
      execModinv s =
        .next (complete (writeBezout (inverseOf w.s1 s.regN) w.s1 w.t1 { s with euclid := w }))) := by
  unfold execModinv
  split
  · exact .inl ⟨‹_›, rfl⟩
  · split
    · exact .inr (.inl ⟨‹_›, ‹_›, rfl⟩)
    · split
      · exact .inr (.inr (.inr ⟨‹_›, _, ‹_›, ‹_›, rfl⟩))
      · exact .inr (.inr (.inl ⟨‹_›, _, ‹_›, ‹_›, rfl⟩))

/-- The end of a Miller-Rabin step: the verdict 1, or the next request. -/
theorem nextRound_cases (rounds : Nat) (s : State) :
    (s.mr.i = rounds ∧ nextRound rounds s = completeVerdict true s) ∨
    (s.mr.i ≠ rounds ∧ nextRound rounds s = requestWitness s.mr.tb s) := by
  unfold nextRound
  split
  · exact .inl ⟨‹_›, rfl⟩
  · exact .inr ⟨‹_›, rfl⟩

/-- The step "start" of R204: the operand fault, or the working values and the first end of a step. -/
theorem mrStart_cases (rounds : Nat) (s : State) :
    ((s.regN < 2 ∨ mrTestBits s.params (bitlen s.regN) < 2 ∨ s.opw < mrTestBits s.params (bitlen s.regN)) ∧
      mrStart rounds s = raiseFault .operand s) ∨
    (2 ≤ s.regN ∧ 2 ≤ mrTestBits s.params (bitlen s.regN) ∧ mrTestBits s.params (bitlen s.regN) ≤ s.opw ∧
      mrStart rounds s =
        nextRound rounds { s with mr := mrLoad s.regN (mrTestBits s.params (bitlen s.regN)) s.mr }) := by
  unfold mrStart
  split
  · exact .inl ⟨.inl ‹_›, rfl⟩
  · split
    · exact .inl ⟨.inr ‹_›, rfl⟩
    · exact .inr ⟨by omega, by omega, by omega, rfl⟩

/-- The step "round" of R204: the witness fault, a passed round, or verdict 0. -/
theorem mrRound_cases (rounds a : Nat) (s : State) :
    ((a < 2 ∨ 2 ^ s.mr.tb ≤ a) ∧ mrRound rounds a s = raiseFault .witness s) ∨
    (2 ≤ a ∧ a < 2 ^ s.mr.tb ∧ ∃ b, roundBody s.mr.n s.mr.k s.mr.m a = (b, true) ∧
      mrRound rounds a s = nextRound rounds { s with mr := { s.mr with i := s.mr.i + 1, b := b } }) ∨
    (2 ≤ a ∧ a < 2 ^ s.mr.tb ∧ ∃ b, roundBody s.mr.n s.mr.k s.mr.m a = (b, false) ∧
      mrRound rounds a s = completeVerdict false { s with mr := { s.mr with b := b } }) := by
  unfold mrRound
  split
  · exact .inl ⟨‹_›, rfl⟩
  · split
    · rename_i h
      exact .inr (.inl ⟨by omega, by omega, _, Prod.ext rfl h, rfl⟩)
    · rename_i h
      exact .inr (.inr ⟨by omega, by omega, _, Prod.ext rfl (by simpa using h), rfl⟩)

theorem execMrtest_start {s : State} (rounds : Nat) (h : s.witness = none) :
    execMrtest rounds s = .next (mrStart rounds s) := by
  unfold execMrtest; rw [h]

theorem execMrtest_round {s : State} {a : Nat} (rounds : Nat) (h : s.witness = some a) :
    execMrtest rounds s = .next (mrRound rounds a s) := by
  unfold execMrtest; rw [h]

theorem execPtest_start {s : State} (h : s.witness = none) (hf : smallFactorCheck s.regN = true) :
    execPtest s = .next (mrStart Config.ptestRounds s) := by
  unfold execPtest; rw [h]; simp [hf]

theorem execPtest_filtered {s : State} (h : s.witness = none) (hf : smallFactorCheck s.regN = false) :
    execPtest s = .next (completeVerdict false s) := by
  unfold execPtest; rw [h]; simp [hf]

theorem execPtest_round {s : State} {a : Nat} (h : s.witness = some a) :
    execPtest s = .next (mrRound Config.ptestRounds a s) := by
  unfold execPtest; rw [h]

/-- A Miller-Rabin command with a witness in hand takes the step "round" with its own count of rounds. -/
theorem exec_round {i : Instr} {s : State} {rounds a : Nat} (hi : roundsOf (.instr i) = some rounds)
    (h : s.witness = some a) : exec i s = .next (mrRound rounds a s) := by
  cases i <;> simp [roundsOf] at hi
  · subst hi; exact execMrtest_round _ h
  · subst hi; exact execPtest_round h

/-- The criterion of R178 is what a round body computes. -/
theorem roundBody_passes {n k m a : Nat} (hn : 2 ≤ n) :
    (roundBody n k m a).2 = true ↔ RoundPasses n k m a := by
  have hp : modPow a m n = a ^ m % n := modPow_eq a m n (by omega) (.inl hn)
  unfold roundBody RoundPasses
  rw [hp]
  split
  · rename_i h
    exact iff_of_true rfl (h.elim .inl fun h => .inr (.inl h))
  · rename_i h
    push Not at h
    rw [squareLoop_found]
    have hpow : ∀ j, (a ^ m % n) ^ 2 ^ j % n = a ^ (m * 2 ^ j) % n := by
      intro j; rw [← Nat.pow_mod, ← pow_mul]
    simp only [hpow]
    constructor
    · rintro ⟨j, h1, h2, h3⟩; exact .inr (.inr ⟨j, h1, by omega, h3⟩)
    · rintro (h1 | h1 | ⟨j, h1, h2, h3⟩)
      · exact absurd h1 h.1
      · exact absurd h1 h.2
      · exact ⟨j, h1, by omega, h3⟩

/-- How a Miller-Rabin step can end, whichever of its steps it is. -/
inductive MrStepEnd (s : State) : State → Prop where
  | fault (c : FaultCode) (hc : c = .operand ∨ c = .witness) : MrStepEnd s (raiseFault c s)
  | verdict (v : Bool) (w : MrWork) : MrStepEnd s (completeVerdict v { s with mr := w })
  | request (w : MrWork) : MrStepEnd s (requestWitness w.tb { s with mr := w })

theorem nextRound_end (rounds : Nat) (s : State) (w : MrWork) : MrStepEnd s (nextRound rounds { s with mr := w }) := by
  rcases nextRound_cases rounds { s with mr := w } with ⟨-, h⟩ | ⟨-, h⟩ <;> rw [h]
  · exact .verdict true w
  · exact .request w

theorem mrStart_end (rounds : Nat) (s : State) : MrStepEnd s (mrStart rounds s) := by
  rcases mrStart_cases rounds s with ⟨-, h⟩ | ⟨-, -, -, h⟩ <;> rw [h]
  · exact .fault _ (.inl rfl)
  · exact nextRound_end rounds s _

theorem mrRound_end (rounds a : Nat) (s : State) : MrStepEnd s (mrRound rounds a s) := by
  rcases mrRound_cases rounds a s with ⟨-, h⟩ | ⟨-, -, b, -, h⟩ | ⟨-, -, b, -, h⟩ <;> rw [h]
  · exact .fault _ (.inr rfl)
  · exact nextRound_end rounds s _
  · exact .verdict false _

theorem execMrtest_end (rounds : Nat) (s : State) : ∃ t, execMrtest rounds s = .next t ∧ MrStepEnd s t := by
  cases h : s.witness with
  | none => exact ⟨_, execMrtest_start rounds h, mrStart_end rounds s⟩
  | some a => exact ⟨_, execMrtest_round rounds h, mrRound_end rounds a s⟩

theorem execPtest_end (s : State) : ∃ t, execPtest s = .next t ∧ MrStepEnd s t := by
  cases h : s.witness with
  | none =>
    cases hf : smallFactorCheck s.regN with
    | true => exact ⟨_, execPtest_start h hf, mrStart_end _ s⟩
    | false => exact ⟨_, execPtest_filtered h hf, .verdict false s.mr⟩
  | some a => exact ⟨_, execPtest_round h, mrRound_end _ a s⟩

/-- Everything a command's meaning can answer: it always answers a next state, and this is its shape. -/
inductive ExecEnd (s : State) : Instr → State → Prop where
  | clr : ExecEnd s .clr (clearStatus s)
  | fault (i : Instr) (c : FaultCode) (hi : i ≠ .clr) (hc : c ≠ .illegalCmd) : ExecEnd s i (raiseFault c s)
  | modmul (r : Nat) : ExecEnd s .modmul (complete { s with regR := r })
  | modexp (w : ExpWork) (r : Nat) : ExecEnd s .modexp (complete { s with exp := w, regR := r })
  | split2 (k : Word) (r : Nat) : ExecEnd s .split2 (complete { s with regK := k, regR := r })
  | bezout (i : Instr) (hi : i = .xgcd ∨ i = .modinv) (w : EuclidWork) (r : Nat) :
      ExecEnd s i (complete (writeBezout r w.s1 w.t1 { s with euclid := w }))
  | verdict (i : Instr) (hi : i = .sfcheck ∨ i = .ptest ∨ ∃ rounds, i = .mrtest rounds) (v : Bool) (w : MrWork)
      (hw : i = .sfcheck → w = s.mr) : ExecEnd s i (completeVerdict v { s with mr := w })
  | request (i : Instr) (hi : i = .ptest ∨ ∃ rounds, i = .mrtest rounds) (w : MrWork) :
      ExecEnd s i (requestWitness w.tb { s with mr := w })

theorem MrStepEnd.execEnd {i : Instr} {s t : State} (hi : i = .ptest ∨ ∃ rounds, i = .mrtest rounds)
    (h : MrStepEnd s t) : ExecEnd s i t := by
  have hclr : i ≠ .clr := by rintro rfl; rcases hi with h | ⟨_, h⟩ <;> cases h
  have hsf : i ≠ .sfcheck := by rintro rfl; rcases hi with h | ⟨_, h⟩ <;> cases h
  cases h with
  | fault c hc => exact .fault i c hclr (by rcases hc with rfl | rfl <;> simp)
  | verdict v w => exact .verdict i (.inr hi) v w (fun h => absurd h hsf)
  | request w => exact .request i hi w

theorem exec_end (i : Instr) (s : State) : ∃ t, exec i s = .next t ∧ ExecEnd s i t := by
  cases i with
  | clr => exact ⟨_, rfl, .clr⟩
  | modmul =>
    rcases execModmul_cases s with ⟨-, h⟩ | ⟨-, h⟩
    · exact ⟨_, h, .fault _ _ (by simp) (by simp)⟩
    · exact ⟨_, h, .modmul _⟩
  | modexp =>
    rcases execModexp_cases s with ⟨-, h⟩ | ⟨-, w, h⟩
    · exact ⟨_, h, .fault _ _ (by simp) (by simp)⟩
    · exact ⟨_, h, .modexp _ _⟩
  | split2 =>
    rcases execSplit2_cases s with ⟨-, h⟩ | ⟨-, h⟩
    · exact ⟨_, h, .fault _ _ (by simp) (by simp)⟩
    · exact ⟨_, h, .split2 _ _⟩
  | xgcd =>
    rcases execXgcd_cases s with ⟨-, h⟩ | ⟨-, -, h⟩ | ⟨-, w, -, h⟩
    · exact ⟨_, h, .fault _ _ (by simp) (by simp)⟩
    · exact ⟨_, h, .fault _ _ (by simp) (by simp)⟩
    · exact ⟨_, h, .bezout _ (.inl rfl) w _⟩
  | modinv =>
    rcases execModinv_cases s with ⟨-, h⟩ | ⟨-, -, h⟩ | ⟨-, w, -, -, h⟩ | ⟨-, w, -, -, h⟩
    · exact ⟨_, h, .fault _ _ (by simp) (by simp)⟩
    · exact ⟨_, h, .fault _ _ (by simp) (by simp)⟩
    · exact ⟨_, h, .fault _ _ (by simp) (by simp)⟩
    · exact ⟨_, h, .bezout _ (.inr rfl) w _⟩
  | sfcheck => exact ⟨_, rfl, .verdict _ (.inl rfl) _ s.mr (fun _ => rfl)⟩
  | mrtest rounds =>
    obtain ⟨t, h, he⟩ := execMrtest_end rounds s
    exact ⟨t, h, he.execEnd (.inr ⟨rounds, rfl⟩)⟩
  | ptest =>
    obtain ⟨t, h, he⟩ := execPtest_end s
    exact ⟨t, h, he.execEnd (.inl rfl)⟩

theorem exec_inv {i : Instr} {s t : State} (h : exec i s = .next t) : ExecEnd s i t := by
  obtain ⟨u, hu, he⟩ := exec_end i s
  rw [hu] at h; cases h; exact he

/-! Host writes (R67). -/

/-- Everything an aligned 32-bit write inside the map can do. -/
inductive WriteEnd (off : Nat) (v : Word) (s : State) : State → Prop where
  | ignored : WriteEnd off v s s
  | ctrl (h : placeOf s.nw off = .ctrl) : WriteEnd off v s { s with ie := v.getLsbD 0 }
  | dropped (h : s.status.busy = true) : WriteEnd off v s (dropWrite s)
  | operand (x : WideReg) (i : Nat) (hp : placeOf s.nw off = .word x i) (hx : x.isOperand = true)
      (hb : s.status.busy = false) : WriteEnd off v s (s.setWide x (setWordOf (s.wide x) i v))
  | clr (hp : off = 0x000C) (hb : s.status.busy = false) (hd : decode v = .instr .clr) :
      WriteEnd off v s (clearStatus s)
  | accepted (hp : off = 0x000C) (hb : s.status.busy = false) (hd : decode v ≠ .instr .clr) :
      WriteEnd off v s (accept v s)

theorem memWrite_end (off : Nat) (v : Word) (s : State) :
    ∃ t, memWrite off v s = .next t ∧ WriteEnd off v s t := by
  unfold memWrite
  split
  · rename_i hp
    have hoff := placeOf_eq_cmd hp
    unfold writeCmd
    split
    · exact ⟨_, rfl, .dropped ‹_›⟩
    · rename_i hb
      split
      · exact ⟨_, rfl, .clr hoff (by simpa using hb) ‹_›⟩
      · exact ⟨_, rfl, .accepted hoff (by simpa using hb) ‹_›⟩
  · refine ⟨_, rfl, ?_⟩
    generalize hp : placeOf s.nw off = p
    cases p with
    | ctrl => exact .ctrl hp
    | word x i =>
      simp only [writePlace, writeWord]
      split
      · split
        · exact .dropped ‹_›
        · rename_i hx hb
          exact .operand x i hp hx (by simpa using hb)
      · exact .ignored
    | _ => exact .ignored

/-! One step. -/

/-- Everything a step can do when it answers a next state; `u` is the state without the turn it takes. -/
inductive StepEnd (s : State) : State → Prop where
  | read (off : Nat) (rest : List Turn) (hs : s.schedule = .host (.read off 4) :: rest) (hm : off % 4 = 0)
      (hr : off ≤ 0x7FFC) :
      StepEnd s { s with schedule := rest, outputs := .readData off (memRead s off) :: s.outputs }
  | write (off : Nat) (v : Word) (rest : List Turn) (t : State) (hs : s.schedule = .host (.write off 4 v) :: rest)
      (hw : WriteEnd off v { s with schedule := rest } t) : StepEnd s t
  | reset (rest : List Turn) (hs : s.schedule = .reset :: rest) : StepEnd s (resetInput { s with schedule := rest })
  | illegal (u : State) (hu : EngineNext s u) (hp : s.phase = .exec) (why : Illegal)
      (hd : decode s.cmdreg = .illegal why) : StepEnd s (raiseFault .illegalCmd u)
  | command (u t : State) (i : Instr) (hu : EngineNext s u) (hp : s.phase = .exec) (hd : decode s.cmdreg = .instr i)
      (hi : i ≠ .clr) (he : exec i u = .next t) : StepEnd s t
  | held (u : State) (hu : EngineNext s u) (hp : s.phase ≠ .exec) : StepEnd s u
  | response (a : Nat) (rest : List Turn) (hs : s.schedule = .respond a :: rest) (hp : s.phase = .waitw)
      (ha : a < 2 ^ s.opw) :
      StepEnd s { s with schedule := rest, rndPend := false, phase := .exec, witness := some a }

/-- The engine's next turn changes nothing but the schedule. -/
theorem engineNext_same {s u : State} (h : EngineNext s u) : ∃ l, u = { s with schedule := l } := by
  rcases h with ⟨l, -, h⟩ | ⟨-, h⟩
  · exact ⟨l, h⟩
  · exact ⟨s.schedule, h⟩

/-- A step with the engine to move is the engine's turn. -/
theorem step_engine {s u : State} (h : EngineNext s u) : step s = engineTurn u := by
  rcases h with ⟨l, hs, rfl⟩ | ⟨hs, rfl⟩ <;> simp [step, advance, hs, takeTurn]

theorem engineTurn_inv {s u t : State} (hu : EngineNext s u) (h : engineTurn u = .next t) : StepEnd s t := by
  obtain ⟨l, rfl⟩ := engineNext_same hu
  unfold engineTurn at h
  split at h
  · rename_i hp
    unfold engineStep at h
    split at h
    · rename_i why hd
      cases h; exact .illegal _ hu hp why hd
    · rename_i i hd
      split at h
      · cases h
      · exact .command _ _ i hu hp hd ‹_› h
  · cases h; exact .held _ hu ‹_›

theorem step_inv {s t : State} (h : step s = .next t) : StepEnd s t := by
  cases hs : s.schedule with
  | nil => exact engineTurn_inv (.inr ⟨hs, rfl⟩) (by rw [← step_engine (.inr ⟨hs, rfl⟩)]; exact h)
  | cons turn rest =>
    cases turn with
    | engine =>
      exact engineTurn_inv (.inl ⟨rest, hs, rfl⟩) (by rw [← step_engine (.inl ⟨rest, hs, rfl⟩)]; exact h)
    | reset =>
      simp only [step, advance, hs, takeTurn] at h
      cases h; exact .reset rest hs
    | respond a =>
      simp only [step, advance, hs, takeTurn, respond] at h
      split at h
      · rename_i hp
        split at h
        · cases h; exact .response a rest hs hp ‹_›
        · cases h
      · cases h
    | host x =>
      simp only [step, advance, hs, takeTurn, hostAccess] at h
      cases x with
      | read off bytes =>
        cases hr : accessRefusal off bytes with
        | some r => simp [hr] at h
        | none =>
          simp only [hr] at h
          obtain ⟨rfl, hm, hle⟩ := accessRefusal_none.1 hr
          cases h; exact .read off rest hs hm hle
      | write off bytes v =>
        cases hr : accessRefusal off bytes with
        | some r => simp [hr] at h
        | none =>
          simp only [hr] at h
          obtain ⟨rfl, hm, hle⟩ := accessRefusal_none.1 hr
          obtain ⟨u, hu, he⟩ := memWrite_end off v { s with schedule := rest }
          rw [hu] at h; cases h
          exact .write off v rest _ hs he

/-- One step of a run. -/
theorem run_step {s t : State} (k : Nat) (h : step s = .next t) :
    Host.Core.run Sys2Proof.core (k + 1) s = Host.Core.run Sys2Proof.core k t := by
  have hs : Host.Core.step Sys2Proof.core s = .next t := h
  simp only [Host.Core.run, hs]

end Sys2Proof.Machine
end

