-- ==== Sys2Proof/Machine/Script.lean ====
section
/-! DEFINITION. The host-script lines and pseudo-commands of spec/30_encoding.md (R98, R99) as the turns they stand
for. They have no encoding of their own and are no part of the machine. -/

namespace Sys2Proof.Machine

/-- `MemWrite(off, 4, v)` as a turn (R11). -/
def wr (off : Nat) (v : Word) : Turn :=
  .host (.write off 4 v)

/-- `MemRead(off, 4)` as a turn (R11). -/
def rd (off : Nat) : Turn :=
  .host (.read off 4)

/-- `WRW X, value` on an instance of `nw` words: word 0 first (R98). -/
def wrw (nw : Nat) (x : WideReg) (v : Nat) : List Turn :=
  (List.range nw).map fun i => wr (x.base + 4 * i) (wordOf v i)

/-- `RDW X`: `NW` reads, word 0 first (R98). -/
def rdw (nw : Nat) (x : WideReg) : List Turn :=
  (List.range nw).map fun i => rd (x.base + 4 * i)

/-- A mnemonic line, `WR CMD, match` or `MRTEST rounds` (R98). -/
def command (i : Instr) : Turn :=
  wr 0x000C (encode i)

/-- `WAIT` (R98), written out for `polls` polls of STATUS with an engine turn before each (log entry 19). -/
def wait : Nat → List Turn
  | 0 => []
  | polls + 1 => .engine :: rd 0x0008 :: wait polls

/-- The pseudo-command ENCRYPT (R99, R128). -/
def encrypt (nw m e n : Nat) : List Turn :=
  wrw nw .A m ++ wrw nw .E e ++ wrw nw .N n ++ command .modexp :: (wait 1 ++ rdw nw .R)

/-- The pseudo-command DECRYPT (R99, R128). -/
def decrypt (nw c d n : Nat) : List Turn :=
  wrw nw .A c ++ wrw nw .E d ++ wrw nw .N n ++ command .modexp :: (wait 1 ++ rdw nw .R)

/-- The pseudo-command MODSQR on a block whose A holds `a` (R99). -/
def modsqr (nw a : Nat) : List Turn :=
  wrw nw .B a ++ [command .modmul]

/-- The pseudo-command ISPRIME with the witnesses the source answers, one engine turn after each (R99). -/
def isprime (nw n : Nat) (witnesses : List Nat) : List Turn :=
  wrw nw .N n ++ command .ptest :: .engine ::
    (witnesses.flatMap fun a => [.respond a, .engine]) ++ [rd 0x0008]

end Sys2Proof.Machine
end

