-- ==== Sys2Proof/Tests/Slice0.lean ====
section
/-! SUPPORT. The model's own tests. Expected values are those of spec/95_test_vectors.md (the vector or program line
is named), or computed by hand from the rule named. -/

namespace Sys2Proof.Tests

open Sys2Proof.Machine Sys2Proof.Safety

/-- One observation of the next state, none where the step stops. -/
def after {α : Type} (o : Host.Outcome State Fault Refusal) (f : State → α) : Option α :=
  match o with
  | .next t => some (f t)
  | .fault _ => none
  | .refused _ => none

/-- The refusal of a step, none where it does not refuse. -/
def refusal (o : Host.Outcome State Fault Refusal) : Option Refusal :=
  match o with
  | .next _ => none
  | .fault _ => none
  | .refused r => some r

/-- The OPW = 64 machine with these operands. -/
def operands (a b e n : Nat) : State :=
  { State.reset with regA := a, regB := b, regE := e, regN := n }

/-- `s` with one turn scheduled. -/
def turn (t : Turn) (s : State) : State :=
  { s with schedule := [t] }

/-- A state in which the command of word `w` runs. -/
def running (w : Word) (s : State) : State :=
  accept w s

/-- A state held in WAITW by MRTEST on 221 with this many rounds, round 0 requested (program P2). -/
def held221 (rounds : Nat) : State :=
  { running (encode (.mrtest rounds)) (operands 0 0 0 221) with
    phase := .waitw, rndPend := true, rndBits := 8, mr := { n := 221, tb := 8, k := 2, m := 55, i := 0, b := 0 } }

/-- A state with witness `a` in hand for round 0 of a Miller-Rabin command of word `w` on `n`. -/
def inHand (w : Word) (n tb k m a : Nat) : State :=
  { running w (operands 0 0 0 n) with witness := some a, mr := { n := n, tb := tb, k := k, m := m, i := 0, b := 0 } }

/-! Well-formedness: an ill-formed term for each check. -/

theorem test_wellFormed_rounds : (Instr.mrtest 65535).wellFormed = true ∧ (Instr.mrtest 65536).wellFormed = false := by
  decide

theorem test_access_width : refusal (step (turn (.host (.read 0x0008 2)) State.reset)) = some .accessWidth := by decide
theorem test_access_alignment :
    refusal (step (turn (.host (.write 0x1002 4 5)) State.reset)) = some .accessMisaligned := by decide
theorem test_access_outside : refusal (step (turn (.host (.read 0x8000 4)) State.reset)) = some .accessOutside := by decide
theorem test_response_unasked : refusal (step (turn (.respond 5) State.reset)) = some .responseWithoutRequest := by decide
theorem test_response_too_wide :
    refusal (step (turn (.respond (2 ^ 64)) (held221 1))) = some .responseTooWide := by decide

/-! Decode: each row's word written out from R91 to R94 (V-DEC-1 to V-DEC-5), reserved words (V-DEC-6 to V-DEC-9). -/

theorem test_decode_clr : decode 0b00000000000000000000000000000000#32 = .instr .clr := by decide
theorem test_decode_modmul : decode 0b00000000000000000000000000000001#32 = .instr .modmul := by decide
theorem test_decode_modexp : decode 0b00000000000000000000000000000010#32 = .instr .modexp := by decide
theorem test_decode_split2 : decode 0b00000000000000000000000000000011#32 = .instr .split2 := by decide
theorem test_decode_xgcd : decode 0b00000000000000000000000000000100#32 = .instr .xgcd := by decide
theorem test_decode_modinv : decode 0b00000000000000000000000000000101#32 = .instr .modinv := by decide
theorem test_decode_sfcheck : decode 0b00000000000000000000000000000110#32 = .instr .sfcheck := by decide
theorem test_decode_mrtest : decode 0b00000000000000000100000000000111#32 = .instr (.mrtest 64) := by decide
theorem test_decode_ptest : decode 0b00000000000000000000000000001000#32 = .instr .ptest := by decide
theorem test_decode_mrtest_max : decode 0x00FFFF07#32 = .instr (.mrtest 65535) := by decide
theorem test_decode_reserved :
    decode 0x01000007#32 = .illegal .zeroFieldI ∧ decode 0x00000102#32 = .illegal .zeroFieldZ ∧
      decode 0x00000100#32 = .illegal .zeroFieldZ ∧ decode 0x00000009#32 = .illegal .opcode ∧
      decode 0xFFFFFFFF#32 = .illegal .opcode := by decide
theorem test_encode_mrtest : encode (.mrtest 2) = 0x00000207#32 := by decide
theorem test_table_word : decodeTableWord 32 0x4007 = some (.mrtest 64) ∧ decodeTableWord 32 9 = none := by decide

/-- A command placed by the host's question runs in the very next step from reset: with N = 0 MODMUL faults (0x204). -/
theorem test_placed_modmul_runs :
    after (step (State.reset.withFetchWord 32 1)) (fun t => statusWord t.status) = some 0x204 := by decide
theorem test_placed_clr_runs : after (step (State.reset.withFetchWord 32 0)) (fun t => statusWord t.status) = some 0 := by
  decide

/-! MODMUL. -/

/-- V-MUL-8: the largest factors; the 128-bit product is exact. -/
theorem test_modmul_exact :
    after (exec .modmul (operands 0xFFFFFFFFFFFFFFFF 0xFFFFFFFFFFFFFFFF 0 0xFFFFFFFFFFFFFFFE))
      (fun t => (t.regR, statusWord t.status)) = some (1, 0x002) := by decide
/-- V-MUL-6. -/
theorem test_modmul_zero_modulus :
    after (exec .modmul (operands 7 8 0 0)) (fun t => (t.regR, statusWord t.status)) = some (0, 0x204) := by decide

/-! MODEXP. -/

/-- V-EXP-1, and its trace's last line: b = 151, e = 0. -/
theorem test_modexp_power :
    after (exec .modexp (operands 4 0 13 497)) (fun t => (t.regR, t.exp.b, t.exp.e)) = some (445, 151, 0) := by decide
/-- V-EXP-5: exponent 0 and modulus 1 give 1. -/
theorem test_modexp_unreduced_one : after (exec .modexp (operands 5 0 0 1)) (fun t => t.regR) = some 1 := by decide

/-! SPLIT2. -/

/-- V-SPL-6. -/
theorem test_split2_top_bit :
    after (exec .split2 (operands 0x8000000000000000 0 0 0)) (fun t => (t.regK, t.regR)) = some (63, 1) := by decide
/-- V-SPL-5. -/
theorem test_split2_odd_part :
    after (exec .split2 (operands 3232 0 0 0)) (fun t => (t.regK, t.regR)) = some (5, 101) := by decide

/-! XGCD. -/

/-- V-GCD-1. -/
theorem test_xgcd_negative_s :
    after (exec .xgcd (operands 240 46 0 0)) (fun t => (t.regR, t.regS, t.regT, statusWord t.status, t.euclid.i)) =
      some (2, 9, 47, 0x012, 5) := by decide
/-- V-GCD-2. -/
theorem test_xgcd_negative_t :
    after (exec .xgcd (operands 46 240 0 0)) (fun t => (t.regR, t.regS, t.regT, statusWord t.status, t.euclid.i)) =
      some (2, 47, 9, 0x022, 6) := by decide

/-! MODINV. -/

/-- V-INV-2. -/
theorem test_modinv_private_exponent :
    after (exec .modinv (operands 65537 0 0 3120)) (fun t => (t.regR, t.regS, t.regT, statusWord t.status)) =
      some (2753, 367, 7709, 0x012) := by decide
/-- V-INV-6. -/
theorem test_modinv_not_coprime :
    after (exec .modinv (operands 4 0 0 8)) (fun t => (t.regR, statusWord t.status)) = some (0, 0x404) := by decide

/-! SFCHECK. -/

/-- V-SF-4: a small prime divides itself. -/
theorem test_sfcheck_97 : after (exec .sfcheck (operands 0 0 0 97)) (fun t => statusWord t.status) = some 0x002 := by
  decide
/-- V-SF-8. -/
theorem test_sfcheck_10201 :
    after (exec .sfcheck (operands 0 0 0 10201)) (fun t => statusWord t.status) = some 0x00A := by decide

/-! MRTEST. -/

/-- Program P2, the step "start": tb = 8, k = 2, m = 55, RndReq(8), held. -/
theorem test_mrtest_start :
    after (exec (.mrtest 2) (running (encode (.mrtest 2)) (operands 0 0 0 221)))
      (fun t => (t.phase, t.outputs, t.mr.k, t.mr.m)) = some (.waitw, [.rndReq 8], 2, 55) := by decide
/-- V-MR-2: witness 137 of 221 fails after one squaring to 205. -/
theorem test_mrtest_round :
    after (exec (.mrtest 1) (inHand 0x00000107 221 8 2 55 137)) (fun t => (statusWord t.status, t.mr.b)) =
      some (0x002, 205) := by decide

/-! PTEST. -/

/-- V-PT-1: a small factor, no draw. -/
theorem test_ptest_filtered :
    after (exec .ptest (running 8 (operands 0 0 0 91))) (fun t => (statusWord t.status, t.outputs)) =
      some (0x002, []) := by decide
/-- V-PT-9: a witness of 1 faults. -/
theorem test_ptest_bad_witness :
    after (exec .ptest (inHand 8 65537 16 16 1 1)) (fun t => statusWord t.status) = some 0x504 := by decide

/-! CLR. -/

/-- V-SYS-3: DONE and BUSYWR cleared, VERDICT kept. -/
theorem test_clr_keeps_verdict :
    after (exec .clr { State.reset with status := { Status.reset with done := true, verdict := true, busywr := true } })
      (fun t => statusWord t.status) = some 0x008 := by decide
/-- V-SYS-5: CLR written while busy is dropped. -/
theorem test_clr_while_busy :
    after (step (turn (command .clr) (running 1 State.reset))) (fun t => statusWord t.status) = some 0x041 := by decide

/-! The system. -/

/-- V-SYS-1: the illegal word 9 is accepted. -/
theorem test_illegal_accepted :
    after (step (turn (wr 0x000C 9) State.reset)) (fun t => (statusWord t.status, t.phase)) = some (0x001, .exec) := by
  decide
/-- V-SYS-1: and then faults with code 1. -/
theorem test_illegal_faults :
    after (step (turn .engine (running 9 State.reset))) (fun t => (statusWord t.status, t.phase)) =
      some (0x104, .idle) := by decide
/-- V-SYS-6. -/
theorem test_operand_write_while_busy :
    after (step (turn (wr 0x1004 5) (running 1 State.reset))) (fun t => (t.regA, t.status.busywr)) =
      some (0, true) := by decide
/-- V-SYS-7. -/
theorem test_ctrl_write :
    after (step (turn (wr 0x0004 0xFFFFFFFF#32) State.reset)) (fun t => memRead t 0x0004) = some 1 := by decide
/-- V-SYS-8: CMD, a reserved low offset, and the first offset past A's words (NW = 2). -/
theorem test_reserved_reads :
    memRead (operands 1 1 1 1) 0x000C = 0 ∧ memRead (operands 1 1 1 1) 0x0014 = 0 ∧
      memRead (operands 1 1 1 1) 0x1008 = 0 := by decide
/-- V-SYS-9. -/
theorem test_param_reads :
    paramWord { opw := 64, testBits := [] } = 0x40 ∧ paramWord { opw := 4096, testBits := [] } = 0x1000 := by decide
/-- V-SYS-10. -/
theorem test_irq_rises :
    after (exec .modmul { operands 7 8 0 13 with ie := true }) (fun t => t.irq) = some true := by decide
/-- V-SYS-11. -/
theorem test_status_write_ignored :
    after (step (turn (wr 0x0008 0xFFFFFFFF#32) (running 1 State.reset))) (fun t => statusWord t.status) =
      some 0x001 := by decide
/-- Section 2.10: A = 0x0123456789ABCDEF is written word 0 first; the low word replaces only bits 31:0. -/
theorem test_wrw_words :
    wrw 2 .A 0x0123456789ABCDEF = [wr 0x1000 0x89ABCDEF#32, wr 0x1004 0x01234567#32] ∧
      setWordOf 0x1111111122222222 0 0x41 = 0x1111111100000041 := by decide
/-- R69: the byte at offset 1 of word 0x89ABCDEF is 0xCD. -/
theorem test_register_byte : registerByte (operands 0x89ABCDEF 0 0 0) 0x1001 = 0xCD#8 := by decide
/-- R183: the default, and a table's entry in its place. -/
theorem test_test_bits :
    mrTestBits { opw := 64, testBits := [] } 11 = 8 ∧ mrTestBits { opw := 64, testBits := [0, 0, 5] } 2 = 5 := by decide
/-- P2: the response of 174 puts the witness in hand and releases the engine. -/
theorem test_response :
    after (step (turn (.respond 174) (held221 2))) (fun t => (t.witness, t.phase, t.rndPend)) =
      some (some 174, .exec, false) := by decide
/-- R262: reset while held abandons the command. -/
theorem test_reset_abandons :
    after (step (turn .reset (held221 2))) (fun t => (t.phase, t.rndPend, statusWord t.status, t.schedule)) =
      some (.idle, false, 0, []) := by decide

/-! States for the witnesses, and that they meet the invariant. -/

theorem after_some {α : Type} {o : Host.Outcome State Fault Refusal} {f : State → α} {v : α} (h : after o f = some v) :
    ∃ t, o = .next t ∧ f t = v := by
  cases o <;> simp_all [after]

theorem inv_turn {s : State} (t : Turn) (h : Inv s) : Inv (turn t s) := by
  have mr : MrRunning s → MrRunning (turn t s) := fun m =>
    ⟨m.rounds, m.candidate, m.atLeast2, m.split, m.width, m.widthLow, m.widthHigh, m.filtered⟩
  refine ⟨h.legal, fun x => ?_, h.kLow, h.busy, h.busyAlone, h.endAlone, h.errcode, h.errRange, h.pending, h.noClr,
    fun e => ⟨(h.held e).1, mr (h.held e).2.1, (h.held e).2.2⟩,
    fun a e => ⟨(h.inHand a e).1, (h.inHand a e).2.1, mr (h.inHand a e).2.2⟩⟩
  have := h.wide x
  cases x <;> exact this

/-- MODMUL's operands 7, 8 and 13 (and exponent 2), with BUSYWR set. -/
def ready : State :=
  { operands 7 8 2 13 with status := { Status.reset with busywr := true } }

/-- The same operands with MODMUL accepted. -/
def busy : State :=
  running 1 ready

theorem ready_inv : Inv ready := by
  refine ⟨by decide, fun x => ?_, by decide, by decide, by decide, by decide, by decide, by decide, by decide, by decide,
    nofun, nofun⟩
  cases x <;> decide

theorem busy_inv : Inv busy := by
  refine ⟨by decide, fun x => ?_, by decide, by decide, by decide, by decide, by decide, by decide, by decide, by decide,
    nofun, nofun⟩
  cases x <;> decide

theorem held_inv : Inv (held221 2) := by
  refine ⟨by decide, fun x => ?_, by decide, by decide, by decide, by decide, by decide, by decide, by decide, by decide,
    fun _ => ⟨rfl, ⟨⟨2, by decide, by decide⟩, rfl, by decide, by decide, by decide, by decide, by decide, nofun⟩, rfl⟩, nofun⟩
  cases x <;> decide

/-- The last round of PTEST on 65537, witness 2 in hand. -/
def lastRound : State :=
  { inHand 8 65537 16 16 1 2 with mr := { n := 65537, tb := 16, k := 16, m := 1, i := 63, b := 0 } }

theorem lastRound_inv : Inv lastRound := by
  refine ⟨by decide, fun x => ?_, by decide, by decide, by decide, by decide, by decide, by decide, by decide, by decide,
    nofun, fun a h => ?_⟩
  · cases x <;> decide
  · cases h
    exact ⟨rfl, by decide, ⟨⟨64, by decide, by decide⟩, rfl, by decide, by decide, by decide, by decide, by decide,
      by decide⟩⟩

/-! Witnesses: for each statement of Certificates/Slice0/Obligations.lean with hypotheses, a state and operands that
meet them together, one for each clause. -/

theorem witness_DecodeOfEncodeIsIdentity : (Instr.mrtest 65535).wellFormed = true := by decide

theorem witness_EncodeOfDecodeIsIdentity : decode 0x00FFFF07#32 = .instr (.mrtest 65535) := by decide

theorem witness_DecodeAgreesWithOpcodeMap :
    ∃ row ∈ opcodeTable, 0x00FFFF07#32 &&& row.mask = row.matchBits ∧ 8#32 &&& row.mask ≠ row.matchBits := by decide

theorem witness_EngineStepRunsAcceptedCommand :
    EngineNext busy busy ∧ EngineNext (turn .engine busy) busy ∧ busy.phase = .exec ∧
      (turn .engine busy).phase = .exec ∧ decode busy.cmdreg = .instr .modmul ∧ Instr.modmul ≠ .clr :=
  ⟨.inr ⟨rfl, rfl⟩, .inl ⟨[], rfl, rfl⟩, rfl, rfl, by decide, by decide⟩

theorem witness_ClrRunsInsideItsWrite :
    decode 0 = .instr .clr ∧ (turn (.host (.write 0x000C 4 0)) ready).status.busy = false ∧
      (turn (.host (.write 0x000C 4 0)) busy).status.busy = true := by decide

/-- A command and an illegal word, each written to an idle block. -/
theorem witness_AcceptanceStartsTheCommand :
    ready.status.busy = false ∧ decode 8 ≠ .instr .clr ∧ decode 9 ≠ .instr .clr ∧
      (turn (.host (.write 0x000C 4 9)) ready).schedule = .host (.write 0x000C 4 9) :: [] := by decide

theorem witness_IllegalWordEndsInFaultOne :
    EngineNext (running 9 ready) (running 9 ready) ∧ (running 9 ready).phase = .exec ∧
      decode (running 9 ready).cmdreg = .illegal .opcode :=
  ⟨.inr ⟨rfl, rfl⟩, rfl, by decide⟩

/-- Idle, and held in WAITW. -/
theorem witness_EngineHasNoStepOutsideExec :
    EngineNext ready ready ∧ ready.phase ≠ .exec ∧ EngineNext (turn .engine (held221 2)) (held221 2) ∧
      (turn .engine (held221 2)).phase ≠ .exec :=
  ⟨.inr ⟨rfl, rfl⟩, by decide, .inl ⟨[], rfl, rfl⟩, by decide⟩

/-- CMD, and the last word of N. -/
theorem witness_WriteWhileBusyOnlySetsBusywr :
    busy.status.busy = true ∧ busy.params.Legal ∧ WideReg.N ∈ [WideReg.A, .B, .E, .N] ∧ 1 < busy.nw ∧
      0x4004 = WideReg.N.base + 4 * 1 ∧
      (turn (.host (.write 0x4004 4 5)) busy).schedule = .host (.write 0x4004 4 5) :: [] ∧
      (turn (.host (.write 0x000C 4 5)) busy).schedule = .host (.write 0x000C 4 5) :: [] := by decide

theorem witness_OperandWordWriteKeepsOtherWords :
    (turn (.host (.write (WideReg.N.base + 4 * 1) 4 5)) ready).schedule =
        .host (.write (WideReg.N.base + 4 * 1) 4 5) :: [] ∧
      ready.status.busy = false ∧ ready.params.Legal ∧ WideReg.N ∈ [WideReg.A, .B, .E, .N] ∧ 1 < ready.nw := by decide

theorem witness_WritingAllWordsSetsTheOperand :
    ({ ready with schedule := wrw 2 .E 0xFFFFFFFFFFFFFFFF } : State).schedule =
        ((List.range ready.nw).map fun i =>
          Turn.host (.write (WideReg.E.base + 4 * i) 4 (wordOf 0xFFFFFFFFFFFFFFFF i))) ++ [] ∧
      ready.status.busy = false ∧ ready.params.Legal ∧ WideReg.E ∈ [WideReg.A, .B, .E, .N] ∧
      ready.wide .E < 2 ^ ready.opw ∧ 0xFFFFFFFFFFFFFFFF < 2 ^ ready.opw := by decide

/-- Idle and busy. -/
theorem witness_CtrlWriteSetsInterruptEnable :
    (turn (.host (.write 0x0004 4 3)) ready).schedule = .host (.write 0x0004 4 3) :: [] ∧
      (turn (.host (.write 0x0004 4 2)) busy).schedule = .host (.write 0x0004 4 2) :: [] := by decide

theorem witness_WritesToReadOnlyPlacesAreIgnored :
    (turn (.host (.write 0x0008 4 5)) busy).schedule = .host (.write 0x0008 4 5) :: [] ∧
      (turn (.host (.write 0x7004 4 5)) ready).schedule = .host (.write 0x7004 4 5) :: [] ∧ ready.params.Legal ∧
      busy.params.Legal ∧ 0x0008 ∈ [0x0000, 0x0008, 0x0010] ∧ WideReg.T ∈ [WideReg.R, .S, .T] ∧ 1 < ready.nw ∧
      0x7004 = WideReg.T.base + 4 * 1 := by decide

/-- The first and last reserved offsets of both ranges; NW = 2. -/
theorem witness_ReservedOffsetsReadZeroIgnoreWrites :
    (∀ off ∈ [0x0014, 0x0FFC], off % 4 = 0 ∧ 0x0014 ≤ off ∧ off ≤ 0x0FFC) ∧
      (∀ off ∈ [0x1008, 0x1FFC, 0x7008, 0x7FFC],
        off % 4 = 0 ∧ 0x1000 ≤ off ∧ off ≤ 0x7FFC ∧ 4 * ready.nw ≤ off % 0x1000) ∧
      (turn (.host (.read 0x1008 4)) ready).schedule = .host (.read 0x1008 4) :: [] ∧
      (turn (.host (.write 0x1008 4 5)) ready).schedule = .host (.write 0x1008 4 5) :: [] := by decide

theorem witness_ReadReturnsTheRegister :
    (∀ off ∈ [0x0000, 0x0004, 0x0008, 0x000C, 0x0010, 0x1000, 0x7004, 0x0014, 0x0FFC, 0x1008, 0x7FFC],
        off % 4 = 0 ∧ off ≤ 0x7FFC ∧ (turn (.host (.read off 4)) busy).schedule = .host (.read off 4) :: []) ∧
      busy.params.Legal ∧ 1 < busy.nw ∧ 0x7004 = WideReg.T.base + 4 * 1 ∧ 0x1000 = WideReg.A.base + 4 * 0 ∧
      4 * busy.nw ≤ 0x1008 % 0x1000 := by decide

theorem witness_WideRegisterIsTheSumOfItsWords : Inv ready := ready_inv

/-- A narrow access, a misaligned one, the first offset past the map, the last offset of it. -/
theorem witness_OnlyMalformedAccessesAreRefused :
    (turn (.host (.read 0 2)) busy).schedule = .host (.read 0 2) :: [] ∧ 2 ≠ 4 ∧
      (turn (.host (.write 2 4 5)) busy).schedule = .host (.write 2 4 5) :: [] ∧ 2 % 4 ≠ 0 ∧
      (turn (.host (.read 0x8000 4)) busy).schedule = .host (.read 0x8000 4) :: [] ∧ 0x8000 % 4 = 0 ∧
      0x7FFC < 0x8000 ∧
      (turn (.host (.read 0x7FFC 4)) busy).schedule = .host (.read 0x7FFC 4) :: [] ∧ 0x7FFC % 4 = 0 ∧
      0x7FFC ≤ 0x7FFC := by decide

/-- The narrowest and the widest instance. -/
theorem witness_ResetStateHasTheValuesOfTheTable :
    (Params.mk 32 []).Legal ∧ (Params.mk 32768 [0, 0, 5]).Legal := by decide

theorem witness_ResetInputAbandonsTheCommand : (turn .reset (held221 2)).schedule = .reset :: [] := rfl

theorem witness_ResponseReleasesTheEngine :
    (turn (.respond (2 ^ 64 - 1)) (held221 2)).schedule = .respond (2 ^ 64 - 1) :: [] ∧
      (turn (.respond (2 ^ 64 - 1)) (held221 2)).phase = .waitw ∧ 2 ^ 64 - 1 < 2 ^ (held221 2).opw := by decide

/-- An idle block, and a response one past the port's width. -/
theorem witness_UnaskedResponseIsRefused :
    (turn (.respond 5) ready).schedule = .respond 5 :: [] ∧ (turn (.respond 5) ready).phase ≠ .waitw ∧
      (turn (.respond (2 ^ 64)) (held221 2)).schedule = .respond (2 ^ 64) :: [] ∧
      (turn (.respond (2 ^ 64)) (held221 2)).phase = .waitw ∧ 2 ^ (held221 2).opw ≤ 2 ^ 64 := by decide

theorem witness_ResetStateMeetsTheInvariant : (Params.mk 32768 []).Legal := by decide

/-- An engine step that ends a command, and a response to a held one. -/
theorem witness_EveryStepKeepsTheInvariant :
    (Inv busy ∧ ∃ t, step busy = .next t ∧ t.regR = 4) ∧
      (Inv (turn (.respond 174) (held221 2)) ∧
        ∃ t, step (turn (.respond 174) (held221 2)) = .next t ∧ t.witness = some 174) :=
  ⟨⟨busy_inv, after_some (by decide)⟩, inv_turn _ held_inv, after_some (by decide)⟩

/-- A turn that is refused and one that is not. -/
theorem witness_StepStopsOnlyOnMalformedTurns :
    Inv (turn (.respond 5) busy) ∧ ¬ TurnOk (turn (.respond 5) busy) (.respond 5) ∧
      Inv (turn (.respond 5) (held221 2)) ∧ TurnOk (turn (.respond 5) (held221 2)) (.respond 5) :=
  ⟨inv_turn _ busy_inv, by decide, inv_turn _ held_inv, by decide⟩

theorem witness_OperandsChangeOnlyByHostWriteOrReset :
    ∃ t, step (turn (.host (.write 0x2004 4 1)) ready) = .next t ∧ WideReg.B ∈ [WideReg.A, .B, .E, .N] ∧
      t.wide .B ≠ ready.wide .B := by
  obtain ⟨t, h, e⟩ := after_some
    (show after (step (turn (.host (.write 0x2004 4 1)) ready)) (fun t => t.wide .B) = some (2 ^ 32 + 8) by decide)
  exact ⟨t, h, by decide, by rw [e]; decide⟩

theorem witness_ResultsChangeOnlyAtCompletion :
    Inv busy ∧ (∀ rest, busy.schedule ≠ .reset :: rest) ∧ ∃ t, step busy = .next t ∧ t.regR ≠ busy.regR := by
  obtain ⟨t, h, e⟩ := after_some (show after (step busy) (fun t => t.regR) = some 4 by decide)
  exact ⟨busy_inv, nofun, t, h, by rw [e]; decide⟩

theorem witness_BusywrIsSticky :
    Inv (turn (command .clr) ready) ∧ (turn (command .clr) ready).status.busywr = true ∧
      ∃ t, step (turn (command .clr) ready) = .next t ∧ t.status.busywr = false :=
  ⟨inv_turn _ ready_inv, rfl, after_some (by decide)⟩

theorem witness_EndedCommandReportsDoneOrErr :
    Inv busy ∧ (∀ rest, busy.schedule ≠ .reset :: rest) ∧ busy.status.busy = true ∧
      ∃ t, step busy = .next t ∧ t.status.busy = false :=
  ⟨busy_inv, nofun, rfl, after_some (by decide)⟩

theorem witness_NoCommandWritesOperandsOrControl :
    ∃ t, exec .modmul busy = .next t ∧ t.regR = 4 ∧ Instr.modmul ≠ .clr := by
  obtain ⟨t, h, e⟩ := after_some (show after (exec .modmul busy) (fun t => t.regR) = some 4 by decide)
  exact ⟨t, h, e, by decide⟩

/-- SFCHECK is outside the first three lists, MODMUL outside the fourth. -/
theorem witness_ResultsAreWrittenAsTheTableSays :
    (∃ t, exec .sfcheck ready = .next t ∧ t.status.done = true) ∧
      Instr.sfcheck ∉ [Instr.modmul, .modexp, .split2, .xgcd, .modinv] ∧ Instr.sfcheck ∉ [Instr.xgcd, .modinv] ∧
      Instr.sfcheck ≠ .split2 ∧ (∃ t, exec .modmul ready = .next t ∧ t.status.done = true) ∧
      Instr.modmul ≠ .sfcheck ∧ Instr.modmul ≠ .ptest ∧ ∀ rounds, Instr.modmul ≠ .mrtest rounds :=
  ⟨after_some (by decide), by decide, by decide, by decide, after_some (by decide), by decide, by decide, nofun⟩

theorem witness_OnlyMillerRabinCommandsUseThePort :
    (∃ t, exec .split2 ready = .next t ∧ t.regR = 7) ∧ Instr.split2 ≠ .ptest ∧
      (∀ rounds, Instr.split2 ≠ .mrtest rounds) ∧ ready.rndPend = false ∧ Instr.split2 ≠ .modexp ∧
      Instr.split2 ∉ [Instr.xgcd, .modinv] :=
  ⟨after_some (by decide), by decide, nofun, rfl, by decide, by decide⟩

theorem witness_FaultedCommandHasNoOtherEffect :
    ∃ t, exec .xgcd (operands 7 0 0 0) = .next t ∧ (operands 7 0 0 0).status.err = false ∧ t.status.err = true := by
  obtain ⟨t, h, e⟩ := after_some
    (show after (exec .xgcd (operands 7 0 0 0)) (fun t => t.status.err) = some true by decide)
  exact ⟨t, h, rfl, e⟩

/-- STATUS and a word of R after MODMUL, a word of S after XGCD, K after SPLIT2. -/
theorem witness_OtherOffsetsReadAsBefore :
    (∃ t, exec .modmul busy = .next t ∧ memRead t 0x0008 ≠ memRead busy 0x0008 ∧
        memRead t 0x5000 ≠ memRead busy 0x5000) ∧
      (∃ t, exec .xgcd (operands 240 46 0 0) = .next t ∧ memRead t 0x6000 ≠ memRead (operands 240 46 0 0) 0x6000) ∧
      ∃ t, exec .split2 (operands 8 0 0 0) = .next t ∧ memRead t 0x0010 ≠ memRead (operands 8 0 0 0) 0x0010 := by
  obtain ⟨t, h, e⟩ := after_some (show after (exec .modmul busy)
    (fun t => (decide (memRead t 0x0008 ≠ memRead busy 0x0008 ∧ memRead t 0x5000 ≠ memRead busy 0x5000))) = some true by
      decide)
  obtain ⟨u, hu, eu⟩ := after_some (show after (exec .xgcd (operands 240 46 0 0))
    (fun t => decide (memRead t 0x6000 ≠ memRead (operands 240 46 0 0) 0x6000)) = some true by decide)
  obtain ⟨v, hv, ev⟩ := after_some (show after (exec .split2 (operands 8 0 0 0))
    (fun t => decide (memRead t 0x0010 ≠ memRead (operands 8 0 0 0) 0x0010)) = some true by decide)
  exact ⟨⟨t, h, of_decide_eq_true e⟩, ⟨u, hu, of_decide_eq_true eu⟩, v, hv, of_decide_eq_true ev⟩

theorem witness_SingleStepCommandsEnd :
    Instr.sfcheck ∈ [Instr.modmul, .modexp, .split2, .xgcd, .modinv, .sfcheck] := by decide

/-- Each clause's premise on N, N = 1 the least modulus. -/
theorem witness_ModmulComputesTheProductModN : (operands 5 6 0 1).regN ≠ 0 ∧ (operands 5 6 0 0).regN = 0 := by decide

/-- A second state with the factors exchanged; the factor 1; a product below N. -/
theorem witness_ModmulLaws :
    (operands 3 1 0 13).regN ≠ 0 ∧ (operands 1 3 9 13).regN = (operands 3 1 0 13).regN ∧
      (operands 1 3 9 13).regA = (operands 3 1 0 13).regB ∧ (operands 1 3 9 13).regB = (operands 3 1 0 13).regA ∧
      (operands 3 1 0 13).regB = 1 ∧ (operands 3 1 0 13).regA * (operands 3 1 0 13).regB < (operands 3 1 0 13).regN := by
  decide

/-- N = 2 with E = 0, N = 1 with E = 1, N = 1 with E = 0, N = 0. -/
theorem witness_ModexpComputesThePower :
    (operands 5 0 0 2).regN ≠ 0 ∧ 2 ≤ (operands 5 0 0 2).regN ∧ (operands 5 0 1 1).regN ≠ 0 ∧
      1 ≤ (operands 5 0 1 1).regE ∧ (operands 5 0 0 1).regN = 1 ∧ (operands 5 0 0 1).regE = 0 ∧
      (operands 5 0 0 0).regN = 0 := by decide

/-- N = 3 * 11, E = 3, D = 7. -/
theorem witness_EncryptThenDecryptGivesTheMessage :
    Nat.Prime 3 ∧ Nat.Prime 11 ∧ 3 ≠ 11 ∧ (operands 32 0 3 33).regN = 3 * 11 ∧
      (operands 32 0 3 33).regE * 7 % ((3 - 1) * (11 - 1)) = 1 % ((3 - 1) * (11 - 1)) ∧
      (operands 32 0 3 33).regA < (operands 32 0 3 33).regN :=
  ⟨by norm_num, by norm_num, by decide, by decide, by decide, by decide⟩

theorem witness_Split2GivesTheOddPart :
    (operands 0xFFFFFFFFFFFFFFFF 0 0 0).regA ≠ 0 ∧ (operands 0xFFFFFFFFFFFFFFFF 0 0 0).params.Legal ∧
      (operands 0xFFFFFFFFFFFFFFFF 0 0 0).regA < 2 ^ (operands 0xFFFFFFFFFFFFFFFF 0 0 0).opw ∧
      (operands 0 0 0 0).regA = 0 := by decide

/-- The largest operand with the least divisor; B = 0. -/
theorem witness_XgcdGivesGcdAndBezoutCoefficients :
    (operands 0xFFFFFFFFFFFFFFFF 1 0 0).regB ≠ 0 ∧ (operands 0xFFFFFFFFFFFFFFFF 1 0 0).params.Legal ∧
      (operands 0xFFFFFFFFFFFFFFFF 1 0 0).regA < 2 ^ (operands 0xFFFFFFFFFFFFFFFF 1 0 0).opw ∧
      (operands 0xFFFFFFFFFFFFFFFF 1 0 0).regB < 2 ^ (operands 0xFFFFFFFFFFFFFFFF 1 0 0).opw ∧
      (operands 7 0 0 0).regB = 0 := by decide

/-- B divides A (also A = 0), A divides B, neither. -/
theorem witness_XgcdDegenerateCases :
    (∀ s ∈ [operands 12 4 0 0, operands 0 4 0 0, operands 4 12 0 0, operands 46 240 0 0],
        s.regB ≠ 0 ∧ s.params.Legal ∧ s.regA < 2 ^ s.opw ∧ s.regB < 2 ^ s.opw) ∧
      (operands 12 4 0 0).regB ∣ (operands 12 4 0 0).regA ∧ (operands 0 4 0 0).regB ∣ (operands 0 4 0 0).regA ∧
      1 ≤ (operands 4 12 0 0).regA ∧ (operands 4 12 0 0).regA < (operands 4 12 0 0).regB ∧
      (operands 4 12 0 0).regA ∣ (operands 4 12 0 0).regB ∧ 1 ≤ (operands 46 240 0 0).regA ∧
      (operands 46 240 0 0).regA < (operands 46 240 0 0).regB := by decide

theorem witness_RoundCapIsNeverReached :
    Inv ready ∧ Instr.xgcd ∈ [Instr.xgcd, .modinv] ∧ ready.status.errcode ≠ 3 ∧
      ∃ t, exec .xgcd ready = .next t ∧ t.status.done = true :=
  ⟨ready_inv, by decide, by decide, after_some (by decide)⟩

/-- Coprime (also N = 1), not coprime, N = 0. -/
theorem witness_ModinvGivesTheInverse :
    (∀ s ∈ [operands 3 0 0 11, operands 0 0 0 1, operands 4 0 0 8, operands 4 0 0 0],
        s.params.Legal ∧ s.regA < 2 ^ s.opw ∧ s.regN < 2 ^ s.opw) ∧
      (∀ s ∈ [operands 3 0 0 11, operands 0 0 0 1], s.regN ≠ 0 ∧ Nat.gcd s.regA s.regN = 1) ∧
      (operands 4 0 0 8).regN ≠ 0 ∧ Nat.gcd (operands 4 0 0 8).regA (operands 4 0 0 8).regN ≠ 1 ∧
      (operands 4 0 0 0).regN = 0 := by decide

/-- N = 1; a width of 0 (N = 3 by the default); a width of 65 above OPW = 64; widths 2 and 64 with N = 3. -/
theorem witness_MrtestStartChecksThenDraws :
    (operands 0 0 0 1).witness = none ∧ (operands 0 0 0 1).regN < 2 ∧ mrTestBits { opw := 64, testBits := [] } 2 < 2 ∧
      64 < mrTestBits { opw := 64, testBits := [0, 0, 65] } 2 ∧ mrTestBits { opw := 64, testBits := [0, 0, 2] } 2 = 2 ∧
      mrTestBits { opw := 64, testBits := [0, 0, 64] } 2 = 64 ∧ bitlen (operands 0 0 0 3).regN = 2 ∧
      2 ≤ (operands 0 0 0 3).regN ∧ (1 : Nat) ≤ 65535 := by decide

/-- Witness 1 for PTEST, witness 2^tb for MRTEST. -/
theorem witness_WitnessOutsideTheRangeFaults :
    (inHand 8 65537 16 16 1 1).witness = some 1 ∧ (1 : Nat) < 2 ∧
      (inHand 0x107 221 8 2 55 256).witness = some 256 ∧ 2 ^ (inHand 0x107 221 8 2 55 256).mr.tb ≤ 256 := by decide

theorem passes_174 : RoundPasses 221 2 55 174 :=
  .inr (.inr ⟨1, by decide, by decide, by decide⟩)

theorem fails_137 : ¬ RoundPasses 221 2 55 137 := by
  rintro (h | h | ⟨j, h1, h2, h3⟩)
  · exact absurd h (by decide)
  · exact absurd h (by decide)
  · obtain rfl : j = 1 := by omega
    exact absurd h3 (by decide)

/-- 221 with witness 137 fails, with witness 174 passes; one round makes it the last, two do not. -/
theorem witness_RoundVerdictIsTheMillerRabinCriterion :
    (∀ a ∈ [137, 174], ∀ rounds ∈ [1, 2], roundsOf (.instr (.mrtest rounds)) = some rounds ∧
        (inHand 0x107 221 8 2 55 a).witness = some a ∧ 2 ≤ a ∧ a < 2 ^ (inHand 0x107 221 8 2 55 a).mr.tb ∧
        2 ≤ (inHand 0x107 221 8 2 55 a).mr.n ∧ (inHand 0x107 221 8 2 55 a).mr.n - 1 = 2 ^ 2 * 55 ∧ 55 % 2 = 1) ∧
      ¬ RoundPasses 221 2 55 137 ∧ RoundPasses 221 2 55 174 ∧
      (inHand 0x107 221 8 2 55 174).mr.i + 1 = 1 ∧ (inHand 0x107 221 8 2 55 174).mr.i + 1 ≠ 2 :=
  ⟨by decide, fails_137, passes_174, by decide, by decide⟩

theorem witness_PrimeCandidatePassesCoprimeWitnesses :
    roundsOf (.instr .ptest) = some 64 ∧ lastRound.witness = some 2 ∧ 2 < 2 ^ lastRound.mr.tb ∧ lastRound.mr.n.Prime ∧
      (lastRound.mr.k, lastRound.mr.m) = split2 (lastRound.mr.n - 1) ∧ 2 % lastRound.mr.n ≠ 0 :=
  ⟨by decide, rfl, by decide, by show Nat.Prime 65537; norm_num, by decide, by decide⟩

/-- One round on 221: witness 174 passes, 137 fails, 1 is out of range. -/
theorem witness_MrtestStepsFollowThePseudocode :
    (∀ a ∈ [174, 137, 1],
      ({ running 0x107 (operands 0 0 0 221) with schedule := .engine :: answers [a] } : State).schedule =
        .engine :: (answers ([a].take 1) ++ [])) ∧
      (running 0x107 (operands 0 0 0 221)).phase = .exec ∧ (running 0x107 (operands 0 0 0 221)).witness = none ∧
      decode (running 0x107 (operands 0 0 0 221)).cmdreg = .instr (.mrtest 1) ∧
      2 ≤ (operands 0 0 0 221).regN ∧ 8 = mrTestBits Config.referenceParams (bitlen 221) ∧ 2 ≤ 8 ∧
      8 ≤ (operands 0 0 0 221).opw ∧ (2, 55) = split2 (221 - 1) ∧ (∀ a ∈ [174, 137, 1], a < 2 ^ 64) ∧
      mrPseudocode 221 8 2 55 1 [174] = (.verdict true, 1) ∧
      mrPseudocode 221 8 2 55 1 [137] = (.verdict false, 1) ∧ mrPseudocode 221 8 2 55 1 [1] = (.badWitness, 1) := by
  decide

/-- 91 = 7 * 13, and N = 0. -/
theorem witness_PtestRejectsSmallFactorsWithoutADraw :
    ∀ n ∈ [91, 0], (operands 0 0 0 n).witness = none ∧ ∃ p : Nat, p.Prime ∧ p ≤ 100 ∧ p ∣ (operands 0 0 0 n).regN := by
  intro n hn
  exact ⟨rfl, 7, by norm_num, by decide, by revert n; decide⟩

/-- 65537, and N = 1, which no prime divides. -/
theorem witness_PtestThenRunsMrtestWith64Rounds :
    (∀ n ∈ [65537, 1], (operands 0 0 0 n).witness = none ∧
        ∀ p : Nat, p.Prime → p ≤ 100 → ¬ p ∣ (operands 0 0 0 n).regN) ∧
      2 ≤ (operands 0 0 0 65537).regN ∧ 2 ≤ mrTestBits Config.referenceParams (bitlen 65537) ∧
      mrTestBits Config.referenceParams (bitlen 65537) ≤ (operands 0 0 0 65537).opw := by
  refine ⟨fun n hn => ⟨rfl, (smallFactorCheck_iff n).1 ?_⟩, by decide, by decide, by decide⟩
  revert n; decide

theorem witness_PtestAcceptsNoCandidateWithASmallFactor :
    Inv lastRound ∧ lastRound.phase = .exec ∧ decode lastRound.cmdreg = .instr .ptest ∧
      ∃ t, exec .ptest lastRound = .next t ∧ t.status.done = true ∧ t.status.verdict = true := by
  obtain ⟨t, h, e⟩ := after_some
    (show after (exec .ptest lastRound) (fun t => (t.status.done, t.status.verdict)) = some (true, true) by decide)
  exact ⟨lastRound_inv, rfl, by decide, t, h, congrArg Prod.fst e, congrArg Prod.snd e⟩

end Sys2Proof.Tests
end

section
/-! PROOFS. The scope family (spec/00_scope.md): the key-pair round trip of R129 over two MODEXPs, and the base case
of the machine's invariant. -/

namespace Sys2Proof.Scope

open Sys2Proof.Machine Sys2Proof.Safety

/-! MODEXP with a modulus of 1 or more (R120). -/

/-- MODEXP of a non-zero modulus completes; its R is the modular power, and N stays for the next command. -/
theorem exec_modexp_result {s : State} (hn : s.regN ≠ 0) :
    ∃ t, exec .modexp s = .next t ∧ t.regN = s.regN ∧ t.regR = modPow s.regA s.regE s.regN := by
  obtain ⟨h0, -⟩ | ⟨-, w, hs⟩ := execModexp_cases s
  · exact absurd h0 hn
  · exact ⟨_, hs, rfl, rfl⟩

/-- Raising to `e` and the result to `d` is raising once to `e * d`. -/
theorem modPow_modPow {a e d n : Nat} (hn : 2 ≤ n) : modPow (modPow a e n) d n = a ^ (e * d) % n := by
  have hn0 : n ≠ 0 := by omega
  rw [modPow_eq _ _ _ hn0 (.inl hn), modPow_eq _ _ _ hn0 (.inl hn), ← Nat.pow_mod, pow_mul]

/-! The key pair (R17). -/

/-- Fermat's little theorem, also for multiples of the prime. -/
theorem pow_modEq_self_of_prime {p k : Nat} (hp : p.Prime) (hk : 1 ≤ k) (h : k ≡ 1 [MOD p - 1]) (a : Nat) :
    a ^ k ≡ a [MOD p] := by
  have hdvd : p - 1 ∣ k - 1 := (Nat.modEq_iff_dvd' hk).1 h.symm
  have hpow := Int.ModEq.pow_eq_pow hp hdvd hk Nat.one_pos a
  rw [pow_one] at hpow
  exact_mod_cast hpow

/-- An exponent that is 1 modulo the totient gives every residue of `p * q` back, those not coprime to it too: the
congruence holds modulo each of the two distinct primes. -/
theorem pow_modEq_self_of_totient {p q k : Nat} (hp : p.Prime) (hq : q.Prime) (hpq : p ≠ q) (hk : 1 ≤ k)
    (h : k ≡ 1 [MOD (p - 1) * (q - 1)]) (a : Nat) : a ^ k ≡ a [MOD p * q] :=
  (Nat.modEq_and_modEq_iff_modEq_mul ((Nat.coprime_primes hp hq).2 hpq)).1
    ⟨pow_modEq_self_of_prime hp hk (h.of_mul_right _) a, pow_modEq_self_of_prime hq hk (h.of_mul_left _) a⟩

/-- Distinct primes have a totient above 1. -/
theorem one_lt_totient {p q : Nat} (hp : p.Prime) (hq : q.Prime) (hpq : p ≠ q) : 1 < (p - 1) * (q - 1) := by
  have hp2 := hp.two_le
  have hq2 := hq.two_le
  exact Nat.one_lt_mul_iff.2 ⟨by omega, by omega, by omega⟩

/-- The round trip of R129 on numbers. -/
theorem modPow_roundTrip {p q e d m : Nat} (hp : p.Prime) (hq : q.Prime) (hpq : p ≠ q)
    (hed : e * d ≡ 1 [MOD (p - 1) * (q - 1)]) (hm : m < p * q) :
    modPow (modPow m e (p * q)) d (p * q) = m := by
  have hk : 1 ≤ e * d := by
    refine Nat.one_le_iff_ne_zero.2 fun h0 => (one_lt_totient hp hq hpq).ne' ?_
    rw [h0] at hed
    exact Nat.dvd_one.1 ((Nat.modEq_iff_dvd' (Nat.zero_le 1)).1 hed)
  have hn : 2 ≤ p * q := hp.two_le.trans (Nat.le_mul_of_pos_right p hq.pos)
  calc modPow (modPow m e (p * q)) d (p * q)
      = m ^ (e * d) % (p * q) := modPow_modPow hn
    _ = m % (p * q) := pow_modEq_self_of_totient hp hq hpq hk hed m
    _ = m := Nat.mod_eq_of_lt hm

/-- Settles O42: two MODEXPs raise to `E * D`, and that exponent gives each residue of `p * q` back. -/
theorem encryptThenDecryptGivesTheMessage : Obligations.EncryptThenDecryptGivesTheMessage := by
  intro s p q d hp hq hpq hN hed hA
  have hn : s.regN ≠ 0 := Nat.ne_zero_of_lt hA
  obtain ⟨t, ht, htN, htR⟩ := exec_modexp_result hn
  obtain ⟨u, hu, -, huR⟩ := exec_modexp_result (s := { t with regA := t.regR, regE := d }) (htN ▸ hn)
  refine ⟨t, ht, u, hu, ?_⟩
  calc u.regR
      = modPow t.regR d t.regN := huR
    _ = modPow (modPow s.regA s.regE (p * q)) d (p * q) := by rw [htR, htN, hN]
    _ = s.regA := modPow_roundTrip hp hq hpq hed (hN ▸ hA)

/-! The state after reset (R44). -/

theorem resetWith_wide (p : Params) (x : WideReg) : (State.resetWith p).wide x = 0 := by
  cases x <;> rfl

/-- Right after reset no command runs and no witness is awaited or in hand, so every clause about a running command
holds for want of one. -/
theorem resetWith_inv {p : Params} (hp : p.Legal) : Inv (State.resetWith p) where
  legal := hp
  wide x := by rw [resetWith_wide]; exact Nat.two_pow_pos _
  kLow := by simp [State.resetWith]
  busy := by simp [State.resetWith, Status.reset]
  busyAlone := nofun
  endAlone := nofun
  errcode := by simp [State.resetWith, Status.reset]
  errRange := by simp [State.resetWith, Status.reset]
  pending := by simp [State.resetWith]
  noClr h := absurd rfl h
  held := nofun
  inHand := nofun

/-- Settles O25, at every legal parameters and at the reference ones. -/
theorem resetStateMeetsTheInvariant : Obligations.ResetStateMeetsTheInvariant :=
  ⟨fun _ hp => resetWith_inv hp, resetWith_inv (by decide)⟩

end Sys2Proof.Scope
end

section
/-! PROOFS. The state family (spec/10_state.md): the invariant is kept by every step, registers change only where
their rules say, the frames of the commands, and XGCD. -/

namespace Sys2Proof.Registers

open Sys2Proof.Machine Sys2Proof.Safety

/-! Parts of the invariant. -/

/-- The registers hold numbers of their width (R21, R25) and OPW is legal (R6): the part of the invariant that
neither STATUS nor the sequencer touches. -/
structure RegsFit (s : State) : Prop where
  legal : s.params.Legal
  wide  : ∀ x, s.wide x < 2 ^ s.opw
  kLow  : s.regK.toNat < 2 ^ 16

/-- STATUS of a block that runs no command (R34, R45). -/
structure StatusAtRest (f : Status) : Prop where
  busy     : f.busy = false
  endAlone : f.done = true → f.err = false
  errcode  : f.errcode = 0 ↔ f.err = false
  errRange : f.errcode.toNat ≤ 5

section
variable {s t : State}

theorem regsFit_of_inv (h : Inv s) : RegsFit s :=
  ⟨h.legal, h.wide, h.kLow⟩

theorem RegsFit.congr (h : RegsFit s) (hp : t.params = s.params) (hw : t.wide = s.wide) (hk : t.regK = s.regK) :
    RegsFit t where
  legal := hp ▸ h.legal
  wide x := by rw [hw, opw_congr hp]; exact h.wide x
  kLow := hk ▸ h.kLow

theorem RegsFit.setWide (h : RegsFit s) (x : WideReg) {v : Nat} (hv : v < 2 ^ s.opw) : RegsFit (s.setWide x v) where
  legal := by rw [setWide_params]; exact h.legal
  wide y := by
    rw [wide_setWide, opw_congr (setWide_params s x v)]
    split
    · exact hv
    · exact h.wide y
  kLow := by rw [setWide_regK]; exact h.kLow

/-- OPW is not so small that 1 does not fit (R6). -/
theorem RegsFit.one_lt (h : RegsFit s) : 1 < 2 ^ s.opw := by
  obtain ⟨-, hlow, -⟩ := h.legal
  exact Nat.one_lt_two_pow (by unfold State.opw; omega)

theorem mrRunning_congr (h : MrRunning s) (hp : t.params = s.params) (hc : t.cmdreg = s.cmdreg) (hm : t.mr = s.mr)
    (hN : t.regN = s.regN) : MrRunning t where
  rounds := by rw [hc, hm]; exact h.rounds
  candidate := by rw [hm, hN]; exact h.candidate
  atLeast2 := by rw [hm]; exact h.atLeast2
  split := by rw [hm]; exact h.split
  width := by rw [hm, hp]; exact h.width
  widthLow := by rw [hm]; exact h.widthLow
  widthHigh := by rw [hm, opw_congr hp]; exact h.widthHigh
  filtered := by rw [hc, hN]; exact h.filtered

/-- A block that runs no command meets the invariant once its registers and STATUS do. -/
theorem inv_of_idle (hr : RegsFit t) (hf : StatusAtRest t.status) (hp : t.phase = .idle) (hq : t.rndPend = false)
    (hw : t.witness = none) : Inv t where
  legal := hr.legal
  wide := hr.wide
  kLow := hr.kLow
  busy := by simp [hf.busy, hp]
  busyAlone hb := by simp [hf.busy] at hb
  endAlone := hf.endAlone
  errcode := hf.errcode
  errRange := hf.errRange
  pending := by simp [hq, hp]
  noClr hn := absurd hp hn
  held hn := by simp [hp] at hn
  inHand a ha := by simp [hw] at ha

/-- A block with BUSY = 0 is idle, with no request and no witness. -/
theorem idle_of_inv (h : Inv s) (hb : s.status.busy = false) :
    s.phase = .idle ∧ s.rndPend = false ∧ s.witness = none := by
  have hp : s.phase = .idle := by
    by_contra hn
    simp [h.busy.2 hn] at hb
  refine ⟨hp, Bool.eq_false_iff.2 fun hq => ?_, Option.eq_none_iff_forall_ne_some.2 fun a ha => ?_⟩
  · exact absurd (hp.symm.trans (h.pending.1 hq)) (by decide)
  · exact absurd (hp.symm.trans (h.inHand a ha).1) (by decide)

theorem statusAtRest_of_inv (h : Inv s) (hb : s.status.busy = false) : StatusAtRest s.status :=
  ⟨hb, h.endAlone, h.errcode, h.errRange⟩

/-- In EXEC the block is busy, shows no error, and has no request out (R34, R45, R41). -/
theorem running_of_inv (h : Inv s) (hp : s.phase = .exec) :
    s.status.busy = true ∧ s.status.err = false ∧ s.status.errcode = 0 ∧ s.rndPend = false := by
  have hb : s.status.busy = true := h.busy.2 (by simp [hp])
  have he : s.status.err = false := (h.busyAlone hb).2
  exact ⟨hb, he, h.errcode.2 he, Bool.eq_false_iff.2 fun hq => absurd (hp.symm.trans (h.pending.1 hq)) (by decide)⟩

/-! The shared operations and the wide registers. -/

@[simp] theorem accept_wide (w : Word) (s : State) : (accept w s).wide = s.wide := by funext x; cases x <;> rfl
@[simp] theorem complete_wide (s : State) : (complete s).wide = s.wide := by funext x; cases x <;> rfl
@[simp] theorem raiseFault_wide (c : FaultCode) (s : State) : (raiseFault c s).wide = s.wide := by
  funext x; cases x <;> rfl
@[simp] theorem clearStatus_wide (s : State) : (clearStatus s).wide = s.wide := by funext x; cases x <;> rfl
@[simp] theorem requestWitness_wide (tb : Nat) (s : State) : (requestWitness tb s).wide = s.wide := by
  funext x; cases x <;> rfl
@[simp] theorem dropWrite_wide (s : State) : (dropWrite s).wide = s.wide := by funext x; cases x <;> rfl

theorem withMr_wide (s : State) (w : MrWork) : { s with mr := w }.wide = s.wide := by funext x; cases x <;> rfl

theorem withK_wide (s : State) (k : Word) : { s with regK := k }.wide = s.wide := by funext x; cases x <;> rfl

theorem respond_wide (s : State) (a : Nat) :
    { s with rndPend := false, phase := .exec, witness := some a }.wide = s.wide := by
  funext x; cases x <;> rfl

theorem withHostSide_wide (s : State) (ie bw : Bool) (l : List Turn) (o : List Output) :
    { s with ie := ie, status := { s.status with busywr := bw }, schedule := l, outputs := o }.wide = s.wide := by
  funext x; cases x <;> rfl

/-- After the reset input every wide register holds a number of its width (R44, R261). -/
theorem resetInput_wide_lt (s : State) (x : WideReg) : (resetInput s).wide x < 2 ^ s.opw := by
  cases x <;> exact Nat.mod_lt _ (Nat.two_pow_pos _)

theorem resetInput_regK_lt (s : State) : (resetInput s).regK.toNat < 2 ^ 16 := by
  rw [resetInput_regK, BitVec.toNat_setWidth_of_le (by omega)]
  exact (Config.freeHalf s.draws).isLt

theorem RegsFit.withK (h : RegsFit s) {k : Word} (hk : k.toNat < 2 ^ 16) : RegsFit { s with regK := k } where
  legal := h.legal
  wide x := by rw [withK_wide]; exact h.wide x
  kLow := hk

/-! Each event outside the commands keeps the invariant. -/

/-- CTRL, BUSYWR, the schedule and the record of the outputs are no part of the invariant. -/
theorem inv_withHostSide (h : Inv s) (ie bw : Bool) (l : List Turn) (o : List Output) :
    Inv { s with ie := ie, status := { s.status with busywr := bw }, schedule := l, outputs := o } where
  legal := h.legal
  wide x := by rw [withHostSide_wide]; exact h.wide x
  kLow := h.kLow
  busy := h.busy
  busyAlone := h.busyAlone
  endAlone := h.endAlone
  errcode := h.errcode
  errRange := h.errRange
  pending := h.pending
  noClr := h.noClr
  held hp := by
    obtain ⟨hw, hm, hb⟩ := h.held hp
    exact ⟨hw, mrRunning_congr hm rfl rfl rfl rfl, hb⟩
  inHand a ha := by
    obtain ⟨hp, hlt, hm⟩ := h.inHand a ha
    exact ⟨hp, hlt, mrRunning_congr hm rfl rfl rfl rfl⟩

theorem inv_withSchedule (h : Inv s) (l : List Turn) : Inv { s with schedule := l } :=
  inv_withHostSide h s.ie s.status.busywr l s.outputs

theorem inv_resetInput (h : Inv s) : Inv (resetInput s) :=
  inv_of_idle ⟨h.legal, resetInput_wide_lt s, resetInput_regK_lt s⟩
    ⟨rfl, nofun, by simp [Status.reset], by simp [Status.reset]⟩ rfl rfl rfl

theorem inv_dropWrite (h : Inv s) : Inv (dropWrite s) :=
  inv_withHostSide h s.ie true s.schedule s.outputs

theorem inv_clearStatus (h : Inv s) (hb : s.status.busy = false) : Inv (clearStatus s) := by
  obtain ⟨hp, hq, hw⟩ := idle_of_inv h hb
  exact inv_of_idle ((regsFit_of_inv h).congr rfl (clearStatus_wide s) rfl)
    ⟨hb, nofun, by simp, by simp⟩ hp hq hw

theorem inv_accept (h : Inv s) (hb : s.status.busy = false) {w : Word} (hd : decode w ≠ .instr .clr) :
    Inv (accept w s) where
  legal := h.legal
  wide x := by rw [accept_wide]; exact h.wide x
  kLow := h.kLow
  busy := by simp
  busyAlone _ := ⟨rfl, rfl⟩
  endAlone := nofun
  errcode := by simp
  errRange := by simp
  pending := by simp [(idle_of_inv h hb).2.1]
  noClr _ := hd
  held := nofun
  inHand := nofun

/-- A word write to an operand stays inside the register (R67). -/
theorem inv_operandWrite (h : Inv s) (hb : s.status.busy = false) (x : WideReg) {i : Nat} (hi : i < s.nw) (v : Word) :
    Inv (s.setWide x (setWordOf (s.wide x) i v)) := by
  obtain ⟨hp, hq, hw⟩ := idle_of_inv h hb
  have hv : setWordOf (s.wide x) i v < 2 ^ s.opw := by
    have hx := h.wide x
    rw [opw_eq h.legal] at hx ⊢
    exact setWordOf_lt v hx hi
  exact inv_of_idle ((regsFit_of_inv h).setWide x hv) (by simpa using statusAtRest_of_inv h hb) (by simpa using hp)
    (by simpa using hq) (by simpa using hw)

theorem writeEnd_keeps_inv {off : Nat} {v : Word} (h : Inv s) (hw : WriteEnd off v s t) : Inv t := by
  cases hw with
  | ignored => exact h
  | ctrl => exact inv_withHostSide h _ s.status.busywr s.schedule s.outputs
  | dropped => exact inv_dropWrite h
  | operand x i hp hx hb => exact inv_operandWrite h hb x (placeOf_eq_word hp) v
  | clr hp hb hd => exact inv_clearStatus h hb
  | accepted hp hb hd => exact inv_accept h hb hd

/-- A response hands the engine the witness for the round it is held in (R204). -/
theorem inv_response (h : Inv s) (hp : s.phase = .waitw) {a : Nat} (ha : a < 2 ^ s.opw) :
    Inv { s with rndPend := false, phase := .exec, witness := some a } where
  legal := h.legal
  wide x := by rw [respond_wide]; exact h.wide x
  kLow := h.kLow
  busy := iff_of_true (h.busy.2 (by simp [hp])) (by simp)
  busyAlone := h.busyAlone
  endAlone := h.endAlone
  errcode := h.errcode
  errRange := h.errRange
  pending := by simp
  noClr _ := h.noClr (by simp [hp])
  held := nofun
  inHand b hb := by
    cases hb
    exact ⟨rfl, ha, mrRunning_congr (h.held hp).2.1 rfl rfl rfl rfl⟩

/-! Each command keeps the invariant. -/

theorem inv_raiseFault (h : RegsFit s) (c : FaultCode) : Inv (raiseFault c s) :=
  inv_of_idle (h.congr rfl (raiseFault_wide c s) rfl)
    ⟨rfl, nofun, by cases c <;> simp [FaultCode.code], by cases c <;> simp [FaultCode.code]⟩ rfl rfl rfl

/-- A command that completes has shown no error; what it has written must fit. -/
theorem inv_complete (hr : RegsFit t) (he : t.status.err = false) (hc : t.status.errcode = 0)
    (hq : t.rndPend = false) : Inv (complete t) :=
  inv_of_idle (hr.congr rfl (complete_wide t) rfl) ⟨rfl, fun _ => he, by simp [he, hc], by simp [hc]⟩ rfl hq rfl

theorem inv_completeVerdict (h : Inv s) (hp : s.phase = .exec) (v : Bool) (w : MrWork) :
    Inv (completeVerdict v { s with mr := w }) := by
  obtain ⟨-, he, hc, hq⟩ := running_of_inv h hp
  exact inv_complete ((regsFit_of_inv h).congr rfl (withMr_wide s w) rfl) he hc hq

theorem inv_requestWitness (h : Inv s) (hp : s.phase = .exec) {w : MrWork} (hm : MrRunning { s with mr := w }) :
    Inv (requestWitness w.tb { s with mr := w }) where
  legal := h.legal
  wide x := by rw [requestWitness_wide, withMr_wide]; exact h.wide x
  kLow := h.kLow
  busy := iff_of_true (running_of_inv h hp).1 (by simp)
  busyAlone := h.busyAlone
  endAlone := h.endAlone
  errcode := h.errcode
  errRange := h.errRange
  pending := by simp
  noClr _ := h.noClr (by simp [hp])
  held _ := ⟨rfl, mrRunning_congr hm rfl rfl rfl rfl, rfl⟩
  inHand := nofun

/-- The result writes of XGCD and MODINV fit when the gcd or inverse and both magnitudes do (R27). -/
theorem inv_complete_writeBezout (h : Inv s) (hp : s.phase = .exec) (w : EuclidWork) {r : Nat} (hr : r < 2 ^ s.opw)
    (hs : magnitude w.s1 < 2 ^ s.opw) (ht : magnitude w.t1 < 2 ^ s.opw) :
    Inv (complete (writeBezout r w.s1 w.t1 { s with euclid := w })) := by
  obtain ⟨-, he, hc, hq⟩ := running_of_inv h hp
  have hfit := (((regsFit_of_inv h).setWide .R hr).setWide .S hs).setWide .T ht
  exact inv_complete (hfit.congr rfl (by funext x; cases x <;> rfl) rfl) he hc hq

theorem execModmul_keeps_inv (h : Inv s) (hp : s.phase = .exec) (he : execModmul s = .next t) : Inv t := by
  obtain ⟨-, herr, hc, hq⟩ := running_of_inv h hp
  rcases execModmul_cases s with ⟨-, hs⟩ | ⟨hN, hs⟩ <;> rw [hs] at he <;> cases he
  · exact inv_raiseFault (regsFit_of_inv h) _
  · have hlt : s.regA * s.regB % s.regN < 2 ^ s.opw :=
      (Nat.mod_lt _ (Nat.pos_of_ne_zero hN)).trans (h.wide .N)
    exact inv_complete ((regsFit_of_inv h).setWide .R hlt) herr hc hq

theorem execModexp_keeps_inv (h : Inv s) (hp : s.phase = .exec) (he : execModexp s = .next t) : Inv t := by
  obtain ⟨-, herr, hc, hq⟩ := running_of_inv h hp
  rcases execModexp_cases s with ⟨-, hs⟩ | ⟨hN, w, hs⟩ <;> rw [hs] at he <;> cases he
  · exact inv_raiseFault (regsFit_of_inv h) _
  · have hlt : modPow s.regA s.regE s.regN < 2 ^ s.opw := by
      rcases modPow_le s.regA s.regE s.regN hN with hlt | hone
      · exact hlt.trans (h.wide .N)
      · rw [hone]; exact (regsFit_of_inv h).one_lt
    have hfit := (regsFit_of_inv h).setWide .R hlt
    exact inv_complete (hfit.congr rfl (by funext x; cases x <;> rfl) rfl) herr hc hq

/-- The exponent of two fits K (R25), the odd part fits R (R135). -/
theorem split2_fits (h : RegsFit s) (hA : s.regA ≠ 0) :
    (split2 s.regA).1 < 2 ^ 16 ∧ (split2 s.regA).2 < 2 ^ s.opw := by
  obtain ⟨hprod, -, hk⟩ := split2_spec s.regA hA
  have hAlt : s.regA < 2 ^ s.opw := h.wide .A
  have hlen := bitlen_le_of_lt hAlt
  obtain ⟨-, -, hopw⟩ := h.legal
  constructor
  · unfold State.opw at hlen; omega
  · calc (split2 s.regA).2
        ≤ 2 ^ (split2 s.regA).1 * (split2 s.regA).2 := Nat.le_mul_of_pos_left _ (Nat.two_pow_pos _)
      _ = s.regA := hprod.symm
      _ < 2 ^ s.opw := hAlt

theorem execSplit2_keeps_inv (h : Inv s) (hp : s.phase = .exec) (he : execSplit2 s = .next t) : Inv t := by
  obtain ⟨-, herr, hc, hq⟩ := running_of_inv h hp
  rcases execSplit2_cases s with ⟨-, hs⟩ | ⟨hA, hs⟩ <;> rw [hs] at he <;> cases he
  · exact inv_raiseFault (regsFit_of_inv h) _
  · obtain ⟨hk, hr⟩ := split2_fits (regsFit_of_inv h) hA
    have hkr : (BitVec.ofNat 32 (split2 s.regA).1).toNat < 2 ^ 16 := by
      rw [BitVec.toNat_ofNat]
      exact (Nat.mod_le _ _).trans_lt hk
    exact inv_complete (((regsFit_of_inv h).withK hkr).setWide .R hr) herr hc hq

theorem execXgcd_keeps_inv (h : Inv s) (hp : s.phase = .exec) (he : execXgcd s = .next t) : Inv t := by
  obtain ⟨-, hlow, hhigh⟩ := h.legal
  rcases execXgcd_cases s with ⟨-, hs⟩ | ⟨-, -, hs⟩ | ⟨hB, w, hw, hs⟩ <;> rw [hs] at he <;> cases he
  · exact inv_raiseFault (regsFit_of_inv h) _
  · exact inv_raiseFault (regsFit_of_inv h) _
  · obtain ⟨hg, hs1, ht1⟩ := xgcd_magnitudes_fit hB (h.wide .A) (h.wide .B)
      (by unfold State.opw; omega) hhigh hw
    exact inv_complete_writeBezout h hp w hg hs1 ht1

theorem inverseOf_lt (c : Int) {n : Nat} (hn : n ≠ 0) : inverseOf c n < n := by
  have hpos : (0 : Int) < n := by omega
  have hlt := Int.emod_lt_of_pos c hpos
  have hnonneg := Int.emod_nonneg c hpos.ne'
  unfold inverseOf
  omega

theorem execModinv_keeps_inv (h : Inv s) (hp : s.phase = .exec) (he : execModinv s = .next t) : Inv t := by
  obtain ⟨-, hlow, hhigh⟩ := h.legal
  rcases execModinv_cases s with ⟨-, hs⟩ | ⟨-, -, hs⟩ | ⟨-, w, -, -, hs⟩ | ⟨hN, w, hw, -, hs⟩ <;>
    rw [hs] at he <;> cases he
  · exact inv_raiseFault (regsFit_of_inv h) _
  · exact inv_raiseFault (regsFit_of_inv h) _
  · exact inv_raiseFault (regsFit_of_inv h) _
  · obtain ⟨-, hs1, ht1⟩ := xgcd_magnitudes_fit hN (h.wide .A) (h.wide .N)
      (by unfold State.opw; omega) hhigh hw
    exact inv_complete_writeBezout h hp w ((inverseOf_lt _ hN).trans (h.wide .N)) hs1 ht1

/-- The end of a Miller-Rabin step: either no round is left, or the next one is begun (R204). -/
theorem nextRound_keeps_inv (h : Inv s) (hp : s.phase = .exec) {rounds : Nat} {w : MrWork}
    (hm : w.i ≠ rounds → MrRunning { s with mr := w }) : Inv (nextRound rounds { s with mr := w }) := by
  rcases nextRound_cases rounds { s with mr := w } with ⟨-, hs⟩ | ⟨hi, hs⟩ <;> rw [hs]
  · exact inv_completeVerdict h hp true w
  · exact inv_requestWitness h hp (hm hi)

theorem mrStart_keeps_inv (h : Inv s) (hp : s.phase = .exec) {rounds : Nat}
    (hr : roundsOf (decode s.cmdreg) = some rounds)
    (hf : decode s.cmdreg = .instr .ptest → smallFactorCheck s.regN = true) : Inv (mrStart rounds s) := by
  rcases mrStart_cases rounds s with ⟨-, hs⟩ | ⟨hN, hlow, hhigh, hs⟩ <;> rw [hs]
  · exact inv_raiseFault (regsFit_of_inv h) _
  · refine nextRound_keeps_inv h hp fun hi => ?_
    exact ⟨⟨rounds, hr, Nat.pos_of_ne_zero (Ne.symm hi)⟩, rfl, hN, rfl, rfl, hlow, hhigh, hf⟩

theorem mrRound_keeps_inv (h : Inv s) (hp : s.phase = .exec) {rounds a : Nat}
    (hr : roundsOf (decode s.cmdreg) = some rounds) (hw : s.witness = some a) : Inv (mrRound rounds a s) := by
  rcases mrRound_cases rounds a s with ⟨-, hs⟩ | ⟨-, -, b, -, hs⟩ | ⟨-, -, b, -, hs⟩ <;> rw [hs]
  · exact inv_raiseFault (regsFit_of_inv h) _
  · refine nextRound_keeps_inv h hp fun hi => ?_
    obtain ⟨-, -, hm⟩ := h.inHand a hw
    obtain ⟨r, hr', hlt⟩ := hm.rounds
    obtain rfl : r = rounds := Option.some.inj (hr'.symm.trans hr)
    exact ⟨⟨r, hr, Nat.lt_of_le_of_ne hlt hi⟩, hm.candidate, hm.atLeast2, hm.split, hm.width, hm.widthLow,
      hm.widthHigh, hm.filtered⟩
  · exact inv_completeVerdict h hp false _

theorem execMrtest_keeps_inv (h : Inv s) (hp : s.phase = .exec) {rounds : Nat}
    (hd : decode s.cmdreg = .instr (.mrtest rounds)) (he : execMrtest rounds s = .next t) : Inv t := by
  have hr : roundsOf (decode s.cmdreg) = some rounds := by rw [hd]; rfl
  cases hw : s.witness with
  | none =>
    rw [execMrtest_start rounds hw] at he
    cases he
    exact mrStart_keeps_inv h hp hr (by simp [hd])
  | some a =>
    rw [execMrtest_round rounds hw] at he
    cases he
    exact mrRound_keeps_inv h hp hr hw

theorem execPtest_keeps_inv (h : Inv s) (hp : s.phase = .exec) (hd : decode s.cmdreg = .instr .ptest)
    (he : execPtest s = .next t) : Inv t := by
  have hr : roundsOf (decode s.cmdreg) = some Config.ptestRounds := by rw [hd]; rfl
  cases hw : s.witness with
  | none =>
    cases hf : smallFactorCheck s.regN with
    | true =>
      rw [execPtest_start hw hf] at he
      cases he
      exact mrStart_keeps_inv h hp hr fun _ => hf
    | false =>
      rw [execPtest_filtered hw hf] at he
      cases he
      exact inv_completeVerdict h hp false s.mr
  | some a =>
    rw [execPtest_round hw] at he
    cases he
    exact mrRound_keeps_inv h hp hr hw

/-- The engine's step of an accepted command keeps the invariant. -/
theorem exec_keeps_inv {i : Instr} (h : Inv s) (hp : s.phase = .exec) (hd : decode s.cmdreg = .instr i)
    (he : exec i s = .next t) : Inv t := by
  cases i with
  | clr => exact absurd hd (h.noClr (by simp [hp]))
  | modmul => exact execModmul_keeps_inv h hp he
  | modexp => exact execModexp_keeps_inv h hp he
  | split2 => exact execSplit2_keeps_inv h hp he
  | xgcd => exact execXgcd_keeps_inv h hp he
  | modinv => exact execModinv_keeps_inv h hp he
  | sfcheck => cases he; exact inv_completeVerdict h hp _ s.mr
  | mrtest rounds => exact execMrtest_keeps_inv h hp hd he
  | ptest => exact execPtest_keeps_inv h hp hd he

theorem inv_engineNext {u : State} (h : Inv s) (hu : EngineNext s u) : Inv u := by
  obtain ⟨l, rfl⟩ := engineNext_same hu
  exact inv_withSchedule h l

theorem stepEnd_keeps_inv (h : Inv s) (he : StepEnd s t) : Inv t := by
  cases he with
  | read off rest => exact inv_withHostSide h s.ie s.status.busywr rest _
  | write off v rest _ hs hw => exact writeEnd_keeps_inv (inv_withSchedule h rest) hw
  | reset rest => exact inv_resetInput (inv_withSchedule h rest)
  | illegal u hu => exact inv_raiseFault (regsFit_of_inv (inv_engineNext h hu)) _
  | command u _ i hu hp hd hi he =>
    have hinv := inv_engineNext h hu
    obtain ⟨l, rfl⟩ := engineNext_same hu
    exact exec_keeps_inv hinv hp hd he
  | held _ hu => exact inv_engineNext h hu
  | response a rest hs hp ha => exact inv_response (inv_withSchedule h rest) hp ha

end

/-- Settles O26: one lemma for each event of the inversion of `step`, and for a command one for each row of the
opcode table. -/
theorem everyStepKeepsTheInvariant : Obligations.EveryStepKeepsTheInvariant :=
  fun _ _ h hs => stepEnd_keeps_inv h (step_inv hs)

/-! Frames of the commands (R22 to R24). -/

/-- Settles O32: no way a command can end writes one of these. -/
theorem noCommandWritesOperandsOrControl : Obligations.NoCommandWritesOperandsOrControl := by
  intro i s t h
  cases exec_inv h with
  | clr => exact ⟨rfl, rfl, rfl, rfl, rfl, rfl, rfl, rfl, rfl, fun hi => absurd rfl hi⟩
  | _ => exact ⟨rfl, rfl, rfl, rfl, rfl, rfl, rfl, rfl, rfl, fun _ => rfl⟩

/-- The seven results of R23, which R229 keeps at a fault, are in `t` those of `s`. -/
def SameResults (s t : State) : Prop :=
  t.regR = s.regR ∧ t.regS = s.regS ∧ t.regT = s.regT ∧ t.regK = s.regK ∧ t.status.verdict = s.status.verdict ∧
    t.status.sneg = s.status.sneg ∧ t.status.tneg = s.status.tneg

/-- It serves every update that writes other fields alone: the results of the updated state are those of `s` by
definition. -/
theorem SameResults.refl (s : State) : SameResults s s :=
  ⟨rfl, rfl, rfl, rfl, rfl, rfl, rfl⟩

/-- A write to an operand register is none to a result. -/
theorem sameResults_setWide (s : State) {x : WideReg} (hx : x.isOperand = true) (v : Nat) :
    SameResults s (s.setWide x v) := by
  cases x with
  | R | S | T => cases hx
  | A | B | E | N => exact SameResults.refl s

/-- Settles O33: a command that keeps all seven results meets its row at once; the others write their own columns
only. -/
theorem resultsAreWrittenAsTheTableSays : Obligations.ResultsAreWrittenAsTheTableSays := by
  intro i s t h
  cases exec_inv h with
  | clr | fault | request => exact ⟨fun _ => rfl, fun _ => ⟨rfl, rfl, rfl, rfl⟩, fun _ => rfl, fun _ _ _ => rfl⟩
  | modmul | modexp => exact ⟨fun hi => by simp at hi, fun _ => ⟨rfl, rfl, rfl, rfl⟩, fun _ => rfl, fun _ _ _ => rfl⟩
  | split2 => exact ⟨fun hi => by simp at hi, fun _ => ⟨rfl, rfl, rfl, rfl⟩, fun hi => absurd rfl hi, fun _ _ _ => rfl⟩
  | bezout _ hi =>
    rcases hi with rfl | rfl <;>
      exact ⟨fun hi => by simp at hi, fun hi => by simp at hi, fun _ => rfl, fun _ _ _ => rfl⟩
  | verdict _ hi =>
    refine ⟨fun _ => rfl, fun _ => ⟨rfl, rfl, rfl, rfl⟩, fun _ => rfl, fun hsf hpt hmr => ?_⟩
    rcases hi with rfl | rfl | ⟨rounds, rfl⟩
    · exact absurd rfl hsf
    · exact absurd rfl hpt
    · exact absurd rfl (hmr rounds)

/-- Settles O34: only a Miller-Rabin step can request a witness or load the working values of a test. -/
theorem onlyMillerRabinCommandsUseThePort : Obligations.OnlyMillerRabinCommandsUseThePort := by
  intro i s t h hpt hmr
  cases exec_inv h with
  | clr | modmul | split2 => exact ⟨rfl, rfl, rfl, id, fun _ => rfl, fun _ => rfl⟩
  | fault => exact ⟨rfl, rfl, rfl, fun _ => rfl, fun _ => rfl, fun _ => rfl⟩
  | modexp => exact ⟨rfl, rfl, rfl, id, fun hi => absurd rfl hi, fun _ => rfl⟩
  | bezout _ hi =>
    refine ⟨rfl, rfl, rfl, id, fun _ => rfl, fun hn => ?_⟩
    rcases hi with rfl | rfl <;> simp at hn
  | verdict _ hi v w hw =>
    obtain rfl : i = .sfcheck := by
      rcases hi with hi | hi | ⟨rounds, hi⟩
      · exact hi
      · exact absurd hi hpt
      · exact absurd hi (hmr rounds)
    exact ⟨rfl, rfl, hw rfl, id, fun _ => rfl, fun _ => rfl⟩
  | request _ hi =>
    rcases hi with hi | ⟨rounds, hi⟩
    · exact absurd hi hpt
    · exact absurd hi (hmr rounds)

/-- Settles O36: what stands at an offset is the same place before and after, and by the two frames above only the
places of the results and STATUS can read otherwise. -/
theorem otherOffsetsReadAsBefore : Obligations.OtherOffsetsReadAsBefore := by
  intro i s t off h hne
  obtain ⟨hp, hie, hA, hB, hE, hN, -⟩ := noCommandWritesOperandsOrControl i s t h
  obtain ⟨hR, hST, hK, -⟩ := resultsAreWrittenAsTheTableSays i s t h
  simp only [memRead, nw_congr hp] at hne
  generalize placeOf s.nw off = p at hne
  cases p with
  | param => simp [readPlace, hp] at hne
  | ctrl => simp [readPlace, hie] at hne
  | status => exact .inl rfl
  | cmd | reserved => exact absurd rfl hne
  | k => exact .inr (.inr (.inr ⟨rfl, by by_contra hi; exact hne (hK hi)⟩))
  | word x j =>
    cases x with
    | A => simp [readPlace, State.wide, hA] at hne
    | B => simp [readPlace, State.wide, hB] at hne
    | E => simp [readPlace, State.wide, hE] at hne
    | N => simp [readPlace, State.wide, hN] at hne
    | R =>
      refine .inr (.inl ⟨⟨j, rfl⟩, ?_⟩)
      by_contra hi
      simp [readPlace, State.wide, hR hi] at hne
    | S =>
      refine .inr (.inr (.inl ⟨⟨j, .inl rfl⟩, ?_⟩))
      by_contra hi
      simp [readPlace, State.wide, (hST hi).1] at hne
    | T =>
      refine .inr (.inr (.inl ⟨⟨j, .inr rfl⟩, ?_⟩))
      by_contra hi
      simp [readPlace, State.wide, (hST hi).2.1] at hne

/-! What one step can change. -/

section
variable {s t : State}

theorem withSchedule_wide (s : State) (l : List Turn) : { s with schedule := l }.wide = s.wide := by
  funext x; cases x <;> rfl

theorem exec_operand {i : Instr} (h : exec i s = .next t) {x : WideReg} (hx : x ∈ [WideReg.A, .B, .E, .N]) :
    t.wide x = s.wide x := by
  obtain ⟨-, -, hA, hB, hE, hN, -⟩ := noCommandWritesOperandsOrControl i s t h
  cases x with
  | A => exact hA
  | B => exact hB
  | E => exact hE
  | N => exact hN
  | R | S | T => simp at hx

theorem writeEnd_params {off : Nat} {v : Word} (h : WriteEnd off v s t) : t.params = s.params := by
  cases h with
  | operand => exact setWide_params _ _ _
  | _ => rfl

/-- A wide register that a host write changes is the one whose word was written, while BUSY = 0 (R67). -/
theorem writeEnd_wide_changed {off : Nat} {v : Word} (h : WriteEnd off v s t) {x : WideReg}
    (hne : t.wide x ≠ s.wide x) : s.status.busy = false ∧ ∃ i, i < s.nw ∧ placeOf s.nw off = .word x i := by
  cases h with
  | operand y i hp _ hb =>
    obtain rfl : x = y := by
      by_contra hxy
      rw [wide_setWide, if_neg hxy] at hne
      exact hne rfl
    exact ⟨hb, i, placeOf_eq_word hp, hp⟩
  | ignored => exact absurd rfl hne
  | ctrl => exact absurd (congrFun (withHostSide_wide s _ s.status.busywr s.schedule s.outputs) x) hne
  | dropped => simp at hne
  | clr => simp at hne
  | accepted => simp at hne

theorem writeEnd_sameResults {off : Nat} {v : Word} (h : WriteEnd off v s t) : SameResults s t := by
  cases h with
  | operand x i _ hx => exact sameResults_setWide s hx _
  | ignored | ctrl | dropped | clr | accepted => exact SameResults.refl s

/-- A host write never ends a command. -/
theorem writeEnd_busy {off : Nat} {v : Word} (h : WriteEnd off v s t) (hb : s.status.busy = true) :
    t.status.busy = true := by
  cases h with
  | operand => rwa [setWide_status]
  | accepted => rfl
  | _ => exact hb

theorem writeEnd_busywr_cleared {off : Nat} {v : Word} (h : WriteEnd off v s t) (hs : s.status.busywr = true)
    (ht : t.status.busywr = false) : off = 0x000C ∧ decode v = .instr .clr ∧ s.status.busy = false := by
  cases h with
  | clr hp hb hd => exact ⟨hp, hd, hb⟩
  | operand => simp [hs] at ht
  | dropped => simp at ht
  | ignored | ctrl | accepted => simp [hs] at ht

/-- What became of a command after one engine step: it ended in a fault, or completed, or is held with a request out
and everything the host sees of it as before (R204 to R206). -/
theorem execEnd_outcome {i : Instr} (h : ExecEnd s i t) (hi : i ≠ .clr) :
    (∃ c, t = raiseFault c s) ∨
    (t.phase = .idle ∧ t.status.busy = false ∧ t.status.done = true ∧ t.status.err = s.status.err) ∨
    (t.status = s.status ∧ SameResults s t) := by
  cases h with
  | clr => exact absurd rfl hi
  | fault _ c => exact .inl ⟨c, rfl⟩
  | request => exact .inr (.inr ⟨rfl, SameResults.refl s⟩)
  | modmul | modexp | split2 | bezout | verdict => exact .inr (.inl ⟨rfl, rfl, rfl, rfl⟩)

end

/-- Settles O28: of the events, a host write and the reset input alone can change an operand. -/
theorem operandsChangeOnlyByHostWriteOrReset : Obligations.OperandsChangeOnlyByHostWriteOrReset := by
  intro s t h
  cases step_inv h with
  | read off rest =>
    exact ⟨rfl, fun x _ hne => absurd (congrFun (withHostSide_wide s s.ie s.status.busywr rest _) x) hne⟩
  | write off v rest _ hs hw =>
    refine ⟨(writeEnd_params hw :), fun x _ hne => .inr ⟨off, v, rest, hs, writeEnd_wide_changed hw ?_⟩⟩
    rwa [withSchedule_wide]
  | reset rest hs => exact ⟨rfl, fun _ _ _ => .inl ⟨rest, hs⟩⟩
  | illegal u hu =>
    obtain ⟨l, rfl⟩ := engineNext_same hu
    exact ⟨rfl, fun x _ hne => by simp [withSchedule_wide] at hne⟩
  | command u _ i hu _ _ _ he =>
    obtain ⟨l, rfl⟩ := engineNext_same hu
    refine ⟨(noCommandWritesOperandsOrControl i _ t he).1, fun x hx hne => ?_⟩
    rw [exec_operand he hx, withSchedule_wide] at hne
    exact absurd rfl hne
  | held _ hu =>
    obtain ⟨l, rfl⟩ := engineNext_same hu
    exact ⟨rfl, fun x _ hne => by simp [withSchedule_wide] at hne⟩
  | response a rest =>
    refine ⟨rfl, fun x _ hne => ?_⟩
    rw [respond_wide { s with schedule := rest } a, withSchedule_wide] at hne
    exact absurd rfl hne

theorem SameResults.unchanged {s t : State} (h : SameResults s t) :
    ¬(t.regR ≠ s.regR ∨ t.regS ≠ s.regS ∨ t.regT ≠ s.regT ∨ t.regK ≠ s.regK ∨
      t.status.verdict ≠ s.status.verdict ∨ t.status.sneg ≠ s.status.sneg ∨ t.status.tneg ≠ s.status.tneg) := by
  obtain ⟨hR, hS, hT, hK, hv, hsn, htn⟩ := h
  simp [hR, hS, hT, hK, hv, hsn, htn]

/-- A step that is no reset keeps the results, or is the engine step that completes a command (R23). -/
theorem step_sameResults_or_completes {s t : State} (h : Inv s) (hstep : step s = .next t)
    (hr : ∀ rest, s.schedule ≠ .reset :: rest) :
    SameResults s t ∨ (s.phase = .exec ∧ t.phase = .idle ∧ t.status.done = true ∧ t.status.err = false) := by
  cases step_inv hstep with
  | read | response => exact .inl (SameResults.refl s)
  | write off v rest _ _ hw => exact .inl (writeEnd_sameResults hw :)
  | reset rest hs => exact absurd hs (hr rest)
  | illegal u hu =>
    obtain ⟨l, rfl⟩ := engineNext_same hu
    exact .inl (SameResults.refl s)
  | command u _ i hu hp _ hi he =>
    obtain ⟨l, rfl⟩ := engineNext_same hu
    rcases execEnd_outcome (exec_inv he) hi with ⟨c, rfl⟩ | ⟨hidle, -, hdone, herr⟩ | ⟨-, hsame⟩
    · exact .inl (SameResults.refl s)
    · exact .inr ⟨hp, hidle, hdone, herr.trans (running_of_inv h hp).2.1⟩
    · exact .inl hsame
  | held _ hu =>
    obtain ⟨l, rfl⟩ := engineNext_same hu
    exact .inl (SameResults.refl s)

/-- Settles O29. -/
theorem resultsChangeOnlyAtCompletion : Obligations.ResultsChangeOnlyAtCompletion :=
  fun _ _ h hs hr hne => (step_sameResults_or_completes h hs hr).resolve_left fun hsame => hsame.unchanged hne

/-- Settles O30: the engine and the source keep BUSYWR, and of the host's writes CLR alone clears it. -/
theorem busywrIsSticky : Obligations.BusywrIsSticky := by
  intro s t _ hstep hs ht
  cases step_inv hstep with
  | read | response => simp [hs] at ht
  | write off v rest _ hsch hw =>
    obtain ⟨rfl, hd, hb⟩ := writeEnd_busywr_cleared hw hs ht
    exact .inr ⟨v, rest, hsch, hd, hb⟩
  | reset rest hsch => exact .inl ⟨rest, hsch⟩
  | illegal u hu =>
    obtain ⟨l, rfl⟩ := engineNext_same hu
    simp [hs] at ht
  | command u _ i hu _ _ hi he =>
    obtain ⟨l, rfl⟩ := engineNext_same hu
    obtain ⟨-, -, -, -, -, -, -, -, -, hbw⟩ := noCommandWritesOperandsOrControl i _ t he
    simp [hbw hi, hs] at ht
  | held _ hu =>
    obtain ⟨l, rfl⟩ := engineNext_same hu
    simp [hs] at ht

/-- Settles O31: BUSY falls only in an engine step, which ends in a fault or in a completion without an error. -/
theorem endedCommandReportsDoneOrErr : Obligations.EndedCommandReportsDoneOrErr := by
  intro s t h hstep hr hs ht
  cases step_inv hstep with
  | read | response => simp [hs] at ht
  | write off v rest _ _ hw => simp [writeEnd_busy hw hs] at ht
  | reset rest hsch => exact absurd hsch (hr rest)
  | illegal u => exact ⟨rfl, by simp [State.irq], rfl⟩
  | command u _ i hu _ _ hi he =>
    obtain ⟨l, rfl⟩ := engineNext_same hu
    rcases execEnd_outcome (exec_inv he) hi with ⟨c, rfl⟩ | ⟨hidle, -, hdone, herr⟩ | ⟨hsame, -⟩
    · exact ⟨rfl, by simp [State.irq], rfl⟩
    · exact ⟨by rw [hdone, herr, (h.busyAlone hs).2]; rfl, by simp [State.irq, hdone], hidle⟩
    · simp [hsame, hs] at ht
  | held _ hu =>
    obtain ⟨l, rfl⟩ := engineNext_same hu
    simp [hs] at ht

/-! XGCD and MODINV (R145 to R149). -/

/-- XGCD writes what `xgcd` answers. -/
theorem exec_xgcd_of_some {s : State} {w : EuclidWork} (hB : s.regB ≠ 0) (hw : xgcd s.regA s.regB = some w) :
    exec .xgcd s = .next (complete (writeBezout w.b w.s1 w.t1 { s with euclid := w })) := by
  rcases execXgcd_cases s with ⟨h0, -⟩ | ⟨-, hnone, -⟩ | ⟨-, v, hv, hs⟩
  · exact absurd h0 hB
  · simp [hnone] at hw
  · obtain rfl : v = w := Option.some.inj (hv.symm.trans hw)
    exact hs

/-- Settles O44, from what `xgcd` computes. -/
theorem xgcdGivesGcdAndBezoutCoefficients : Obligations.XgcdGivesGcdAndBezoutCoefficients := by
  intro s
  constructor
  · intro hB hl _ hlt
    obtain ⟨w, hw, hg, hbezout, hc, hd, hpos, hneg, -⟩ := xgcd_spec s.regA s.regB s.opw hB hlt hl.2.2
    refine ⟨w, w.s1, w.t1, ?_, ?_, ?_, ?_, hpos, hneg⟩ <;> rw [← hg]
    · exact exec_xgcd_of_some hB hw
    · exact hbezout
    · exact hc
    · exact hd
  · intro h0
    rcases execXgcd_cases s with ⟨-, hs⟩ | ⟨hB, -⟩ | ⟨hB, -⟩
    · exact hs
    · exact absurd h0 hB
    · exact absurd h0 hB

/-! The degenerate cases of XGCD (R149). -/

theorem xgcd_of_mod_eq_zero {a b : Nat} (h : a % b = 0) : xgcd a b = some { euclidStart a b with i := 1 } :=
  if_pos h

theorem xgcd_of_mod_ne_zero {a b : Nat} (h : a % b ≠ 0) :
    xgcd a b = euclidLoop (Config.xgcdCap - 1) (euclidSwap (euclidStart a b)) :=
  if_neg h

/-- The same working values with `s` and `t` exchanged, one round later. -/
def euclidExchange (w : EuclidWork) : EuclidWork :=
  { w with s0 := w.t0, s1 := w.t1, t0 := w.s0, t1 := w.s1, i := w.i + 1 }

/-- The round treats `s` and `t` alike, so the loop from exchanged values answers the exchanged result. -/
theorem euclidLoop_exchange (left : Nat) (w : EuclidWork) :
    euclidLoop left (euclidExchange w) = (euclidLoop left w).map euclidExchange := by
  induction left generalizing w with
  | zero => rfl
  | succ left ih =>
    by_cases h : w.a % w.b = 0
    · have h' : (euclidExchange w).a % (euclidExchange w).b = 0 := h
      simp only [euclidLoop, if_pos h, if_pos h']
      rfl
    · have h' : ¬(euclidExchange w).a % (euclidExchange w).b = 0 := h
      simp only [euclidLoop, if_neg h, if_neg h']
      exact ih (euclidSwap w)

/-- The first round on `a < b` only exchanges the operands. -/
theorem euclidSwap_start_of_lt {a b : Nat} (h : a < b) :
    euclidSwap (euclidStart a b) = euclidExchange (euclidStart b a) := by
  simp [euclidSwap, euclidStart, euclidExchange, Nat.div_eq_of_lt h, Nat.mod_eq_of_lt h]

/-- For `a < b` the answer is that for the exchanged operands, exchanged, one round later. -/
theorem xgcd_exchange {a b : Nat} {w : EuclidWork} (ha : 1 ≤ a) (hab : a < b) (hw : xgcd a b = some w) :
    ∃ v, xgcd b a = some v ∧ w = euclidExchange v := by
  have hmod : a % b ≠ 0 := by rw [Nat.mod_eq_of_lt hab]; omega
  rw [xgcd_of_mod_ne_zero hmod, euclidSwap_start_of_lt hab, euclidLoop_exchange] at hw
  obtain ⟨v, hv, rfl⟩ := Option.map_eq_some_iff.1 hw
  exact ⟨v, euclidLoop_mono hv (Nat.sub_le _ _), rfl⟩

/-- Settles O45: a divisor ends the first round, and operands in the wrong order cost one round that exchanges
them. -/
theorem xgcdDegenerateCases : Obligations.XgcdDegenerateCases := by
  intro s hB hl _ hlt
  obtain ⟨w, hw, -⟩ := xgcd_spec s.regA s.regB s.opw hB hlt hl.2.2
  refine ⟨_, exec_xgcd_of_some hB hw, ?_, ?_, ?_⟩
  · intro hdvd
    obtain rfl := Option.some.inj ((xgcd_of_mod_eq_zero (Nat.mod_eq_zero_of_dvd hdvd)).symm.trans hw)
    exact ⟨rfl, rfl, rfl, rfl, rfl, rfl⟩
  · intro hA hAB hdvd
    obtain ⟨v, hv, rfl⟩ := xgcd_exchange hA hAB hw
    obtain rfl := Option.some.inj ((xgcd_of_mod_eq_zero (Nat.mod_eq_zero_of_dvd hdvd)).symm.trans hv)
    exact ⟨rfl, rfl, rfl, rfl, rfl, rfl⟩
  · intro hA hAB
    obtain ⟨v, hv, rfl⟩ := xgcd_exchange hA hAB hw
    have hA0 : s.regA ≠ 0 := by omega
    exact ⟨_, exec_xgcd_of_some (s := { s with regA := s.regB, regB := s.regA }) hA0 hv, rfl, rfl, rfl, rfl, rfl⟩

/-! The round cap (R147). -/

/-- On a second operand within the width the rounds stay below the cap. -/
theorem xgcd_some_of_inv {s : State} (h : Inv s) (x : WideReg) (hx : s.wide x ≠ 0) :
    ∃ w, xgcd s.regA (s.wide x) = some w ∧ w.i ≤ 2 * s.opw + 2 := by
  obtain ⟨w, hw, -, -, -, -, -, -, hi⟩ := xgcd_spec s.regA (s.wide x) s.opw hx (h.wide x) h.legal.2.2
  exact ⟨w, hw, by omega⟩

/-- Settles O46: a fault is code 2 or 4, and a completion counts the rounds of a loop that ends below the cap. -/
theorem roundCapIsNeverReached : Obligations.RoundCapIsNeverReached := by
  intro i s t h hi hs hne
  obtain rfl | rfl : i = .xgcd ∨ i = .modinv := by simpa using hi
  · rcases execXgcd_cases s with ⟨-, hx⟩ | ⟨hB, hnone, -⟩ | ⟨hB, w, hw, hx⟩
    · cases hx.symm.trans hs
      exact ⟨by simp [FaultCode.code], nofun⟩
    · obtain ⟨w, hw, -⟩ := xgcd_some_of_inv h .B hB
      cases hnone.symm.trans hw
    · cases hx.symm.trans hs
      obtain ⟨v, hv, hrounds⟩ := xgcd_some_of_inv h .B hB
      obtain rfl : w = v := Option.some.inj (hw.symm.trans hv)
      exact ⟨hne, fun _ => hrounds⟩
  · rcases execModinv_cases s with ⟨-, hx⟩ | ⟨hN, hnone, -⟩ | ⟨-, w, -, -, hx⟩ | ⟨hN, w, hw, -, hx⟩
    · cases hx.symm.trans hs
      exact ⟨by simp [FaultCode.code], nofun⟩
    · obtain ⟨w, hw, -⟩ := xgcd_some_of_inv h .N hN
      cases hnone.symm.trans hw
    · cases hx.symm.trans hs
      exact ⟨by simp [FaultCode.code], nofun⟩
    · cases hx.symm.trans hs
      obtain ⟨v, hv, hrounds⟩ := xgcd_some_of_inv h .N hN
      obtain rfl : w = v := Option.some.inj (hw.symm.trans hv)
      exact ⟨hne, fun _ => hrounds⟩

/-! CTRL, STATUS and reset (R32, R33, R44, R261). -/

theorem toNat_paramWord {p : Params} (hp : p.Legal) : (paramWord p).toNat = p.opw := by
  obtain ⟨-, -, hhigh⟩ := hp
  rw [paramWord, BitVec.toNat_ofNat]
  omega

/-- CTRL reads back the one bit it took (R32). -/
theorem ctrlWord_getLsbD_zero (w : Word) : ctrlWord (w.getLsbD 0) = w &&& 1 := by
  rw [show (1 : Word) = 1#32 from rfl, BitVec.and_one_eq_setWidth_ofBool_getLsbD]
  cases w.getLsbD 0 <;> rfl

theorem step_write_ctrl {s : State} {w : Word} {rest : List Turn}
    (hs : s.schedule = .host (.write 0x0004 4 w) :: rest) :
    step s = .next { s with schedule := rest, ie := w.getLsbD 0 } := by
  simp [step, advance, hs, takeTurn, hostAccess, accessRefusal, memWrite, writePlace]

theorem memRead_ctrl (s : State) : memRead s 0x0004 = ctrlWord s.ie := by
  rw [memRead, placeOf_ctrl, readPlace]

/-- Settles O14. -/
theorem ctrlWriteSetsInterruptEnable : Obligations.CtrlWriteSetsInterruptEnable := by
  refine ⟨fun p => memRead_ctrl _, fun s w rest hs => ⟨step_write_ctrl hs, ?_⟩⟩
  rw [memRead_ctrl]
  exact ctrlWord_getLsbD_zero w

theorem flagBit_eq (b : Bool) (i : Nat) : flagBit b i = b.toNat * 2 ^ i := by
  cases b <;> simp [flagBit]

theorem status_fields_bounded (f : Status) :
    f.busy.toNat ≤ 1 ∧ f.done.toNat ≤ 1 ∧ f.err.toNat ≤ 1 ∧ f.verdict.toNat ≤ 1 ∧ f.sneg.toNat ≤ 1 ∧ f.tneg.toNat ≤ 1 ∧
      f.busywr.toNat ≤ 1 ∧ f.errcode.toNat < 16 :=
  ⟨Bool.toNat_le _, Bool.toNat_le _, Bool.toNat_le _, Bool.toNat_le _, Bool.toNat_le _, Bool.toNat_le _,
    Bool.toNat_le _, f.errcode.isLt⟩

/-- STATUS as a number: its fields weighted by their positions (R33). -/
theorem toNat_statusWord (f : Status) :
    (statusWord f).toNat = f.busy.toNat + f.done.toNat * 2 + f.err.toNat * 4 + f.verdict.toNat * 8 + f.sneg.toNat * 16
      + f.tneg.toNat * 32 + f.busywr.toNat * 64 + f.errcode.toNat * 256 := by
  have hbounds := status_fields_bounded f
  simp only [statusWord, flagBit_eq, BitVec.toNat_ofNat]
  omega

theorem getLsbD_of_div_mod {w : Word} {i : Nat} {b : Bool} (h : w.toNat / 2 ^ i % 2 = b.toNat) : w.getLsbD i = b := by
  rw [BitVec.getLsbD, Nat.testBit_eq_decide_div_mod_eq, h]
  cases b <;> rfl

/-- Settles O18: each field is the digit of STATUS at its position. -/
theorem statusWordHasItsLayout : Obligations.StatusWordHasItsLayout := by
  intro f
  have hbounds := status_fields_bounded f
  have hf := toNat_statusWord f
  refine ⟨getLsbD_of_div_mod ?_, getLsbD_of_div_mod ?_, getLsbD_of_div_mod ?_, getLsbD_of_div_mod ?_,
    getLsbD_of_div_mod ?_, getLsbD_of_div_mod ?_, getLsbD_of_div_mod ?_, getLsbD_of_div_mod ?_, ?_, ?_⟩ <;>
    simp only [field, hf, Bool.toNat_false] <;> omega

theorem statusWord_reset : statusWord Status.reset = 0 := by decide

/-- Settles O21: each entry of R44 that has a value. -/
theorem resetStateHasTheValuesOfTheTable : Obligations.ResetStateHasTheValuesOfTheTable :=
  fun _ hp => ⟨toNat_paramWord hp, rfl, statusWord_reset, by simp [field, State.resetWith], rfl, rfl, rfl⟩

theorem step_reset {s : State} {rest : List Turn} (hs : s.schedule = .reset :: rest) :
    step s = .next (resetInput { s with schedule := rest }) := by
  simp only [step, advance, hs, takeTurn]

/-- Settles O22. -/
theorem resetInputAbandonsTheCommand : Obligations.ResetInputAbandonsTheCommand :=
  fun _ _ hs => ⟨_, step_reset hs, rfl, rfl, statusWord_reset, rfl, rfl, rfl, rfl, rfl, rfl, resetInput_wide_lt _,
    resetInput_regK_lt _⟩

end Sys2Proof.Registers
end

section
/-! PROOFS. The memory family (spec/20_memory.md): words of a wide register, reads and writes of the register port,
refused accesses, responses of the random source, and which turns stop a step. -/

namespace Sys2Proof.Memory

open Sys2Proof.Machine Sys2Proof.Safety

/-- A step with a turn scheduled is that turn, which leaves the schedule (R70). -/
theorem step_turn {s : State} {t : Turn} {rest : List Turn} (hs : s.schedule = t :: rest) :
    step s = takeTurn t { s with schedule := rest } := by
  simp only [step, advance, hs]

/-! Words of a wide register (R62). -/

/-- The low `n` words of a number, weighted by their positions, are the number modulo `2^(32*n)`. -/
theorem sum_words (v n : Nat) :
    ((List.range n).map fun i => (wordOf v i).toNat * 2 ^ (32 * i)).sum = v % 2 ^ (32 * n) := by
  induction n with
  | zero => simp [Nat.mod_one]
  | succ n ih =>
    rw [List.range_succ, List.map_append, List.sum_append, ih, List.map_singleton, List.sum_singleton, toNat_wordOf,
      pow_word_succ, mul_comm (2 ^ 32), Nat.mod_mul, mul_comm (2 ^ (32 * n))]

/-- Settles O19: a register is below `2^OPW`, and OPW is `32 * NW`. -/
theorem wideRegisterIsTheSumOfItsWords : Obligations.WideRegisterIsTheSumOfItsWords := by
  intro s x h
  refine ⟨toNat_wordOf _, ?_⟩
  have hx := h.wide x
  rw [opw_eq h.legal] at hx
  rw [sum_words, Nat.mod_eq_of_lt hx]

/-! Which host accesses are refused (R64). -/

/-- Why an access is refused, whether it is a read or a write; none when it is taken (R64). -/
def refusalOf : Access → Option Refusal
  | .read off bytes => accessRefusal off bytes
  | .write off bytes _ => accessRefusal off bytes

theorem refusalOf_eq_none {x : Access} : refusalOf x = none ↔ AccessOk x := by
  cases x <;> exact accessRefusal_none

theorem hostAccess_refused {x : Access} {r : Refusal} (h : refusalOf x = some r) (s : State) :
    hostAccess x s = .refused r := by
  cases x with
  | read | write =>
    simp only [refusalOf] at h
    simp only [hostAccess, h]

theorem hostAccess_read {off bytes : Nat} (h : accessRefusal off bytes = none) (s : State) :
    hostAccess (.read off bytes) s = .next { s with outputs := .readData off (memRead s off) :: s.outputs } := by
  simp only [hostAccess, h]

theorem hostAccess_write {off bytes : Nat} (h : accessRefusal off bytes = none) (v : Word) (s : State) :
    hostAccess (.write off bytes v) s = memWrite off v s := by
  simp only [hostAccess, h]

/-- An access that is an operation of the hardware is taken, in every state. -/
theorem hostAccess_taken {x : Access} (h : AccessOk x) (s : State) : ∃ t, hostAccess x s = .next t := by
  cases x with
  | read off bytes => exact ⟨_, hostAccess_read (accessRefusal_none.2 h) s⟩
  | write off bytes v =>
    obtain ⟨t, ht, -⟩ := memWrite_end off v s
    exact ⟨t, (hostAccess_write (accessRefusal_none.2 h) v s).trans ht⟩

theorem accessRefusal_width {off bytes : Nat} (h : bytes ≠ 4) : accessRefusal off bytes = some .accessWidth := by
  rw [accessRefusal, if_pos h]

theorem accessRefusal_misaligned {off : Nat} (h : off % 4 ≠ 0) : accessRefusal off 4 = some .accessMisaligned := by
  rw [accessRefusal, if_neg (by simp), if_pos h]

theorem accessRefusal_outside {off : Nat} (hm : off % 4 = 0) (h : 0x7FFC < off) :
    accessRefusal off 4 = some .accessOutside := by
  rw [accessRefusal, if_neg (by simp), if_neg (by simp [hm]), if_pos h]

/-- Settles O20: a read and a write are refused for the same reasons. -/
theorem onlyMalformedAccessesAreRefused : Obligations.OnlyMalformedAccessesAreRefused := by
  intro s off bytes w rest x hx hs
  have hr : refusalOf x = accessRefusal off bytes := by rcases hx with rfl | rfl <;> rfl
  have refused : ∀ r, accessRefusal off bytes = some r → step s = .refused r := fun r h =>
    (step_turn hs).trans (hostAccess_refused (hr.trans h) _)
  refine ⟨fun hb => refused _ (accessRefusal_width hb), ?_, ?_, fun hb hm hle => ?_⟩
  · rintro rfl hm
    exact refused _ (accessRefusal_misaligned hm)
  · rintro rfl hm hlt
    exact refused _ (accessRefusal_outside hm hlt)
  · rw [step_turn hs]
    exact hostAccess_taken (refusalOf_eq_none.1 (hr.trans (accessRefusal_none.2 ⟨hb, hm, hle⟩))) _

/-! Reads and writes inside the map (R61, R66, R67). -/

/-- A word of a wide register stands at an aligned offset inside the map (R61). -/
theorem wordOffset_ok {nw i : Nat} (x : WideReg) (hi : i < nw) (hnw : nw ≤ 1024) :
    (x.base + 4 * i) % 4 = 0 ∧ x.base + 4 * i ≤ 0x7FFC := by
  cases x <;> simp only [WideReg.base] <;> omega

theorem lowPlace_reserved {off : Nat} (h : 0x0014 ≤ off) : lowPlace off = .reserved := by
  obtain ⟨k, rfl⟩ := Nat.exists_eq_add_of_le' h
  rfl

/-- The reserved offsets of R61: those above K in the first window, and those past word `NW - 1` in the others. -/
theorem placeOf_reserved {nw off : Nat}
    (h : 0x0014 ≤ off ∧ off ≤ 0x0FFC ∨ 0x1000 ≤ off ∧ 4 * nw ≤ off % 0x1000) : placeOf nw off = .reserved := by
  rcases h with ⟨hlow, hhigh⟩ | ⟨hlow, hpast⟩
  · rw [placeOf_low (by omega), lowPlace_reserved hlow]
  · unfold placeOf
    split
    · rw [if_neg (by omega)]
    · exact lowPlace_reserved (by omega)

section
variable {s : State} {off : Nat} {v : Word} {rest : List Turn}

theorem step_read (hs : s.schedule = .host (.read off 4) :: rest) (hm : off % 4 = 0) (hle : off ≤ 0x7FFC) :
    step s = .next { s with schedule := rest, outputs := .readData off (memRead s off) :: s.outputs } :=
  (step_turn hs).trans (hostAccess_read (accessRefusal_none.2 ⟨rfl, hm, hle⟩) _)

/-- A write at any place but CMD does what that place does with the word. -/
theorem step_write (hs : s.schedule = .host (.write off 4 v) :: rest) (hm : off % 4 = 0) (hle : off ≤ 0x7FFC)
    {p : Place} (hp : placeOf s.nw off = p) (hcmd : p ≠ .cmd) :
    step s = .next (writePlace v { s with schedule := rest } p) := by
  subst hp
  exact ((step_turn hs).trans (hostAccess_write (accessRefusal_none.2 ⟨rfl, hm, hle⟩) v _)).trans (if_neg hcmd)

/-- An operand of an idle block takes the word (R67). -/
theorem writePlace_operand {x : WideReg} (hx : x.isOperand = true) (hb : s.status.busy = false) (i : Nat) :
    writePlace v s (.word x i) = s.setWide x (setWordOf (s.wide x) i v) := by
  simp [writePlace, writeWord, hx, hb]

/-- The host's write of word `i` of an operand while BUSY = 0 replaces that word and nothing else (R67). -/
theorem step_write_operand {x : WideReg} {i : Nat} (hs : s.schedule = .host (.write (x.base + 4 * i) 4 v) :: rest)
    (hx : x.isOperand = true) (hb : s.status.busy = false) (hlegal : s.params.Legal) (hi : i < s.nw) :
    step s = .next ({ s with schedule := rest }.setWide x (setWordOf (s.wide x) i v)) := by
  obtain ⟨hm, hle⟩ := wordOffset_ok x hi (nw_le hlegal)
  rw [step_write hs hm hle (placeOf_word x hi (nw_le hlegal)) nofun,
    writePlace_operand (s := { s with schedule := rest }) hx hb, Registers.withSchedule_wide]

/-- A word of a result register ignores writes (R67). -/
theorem writePlace_result {x : WideReg} (hx : x.isOperand = false) (i : Nat) : writePlace v s (.word x i) = s := by
  simp [writePlace, writeWord, hx]

end

theorem isOperand_iff (x : WideReg) : x.isOperand = true ↔ x ∈ [WideReg.A, .B, .E, .N] := by
  cases x <;> decide

theorem isOperand_eq_false_iff (x : WideReg) : x.isOperand = false ↔ x ∈ [WideReg.R, .S, .T] := by
  cases x <;> decide

/-- Settles O12: the read-after-write law of a word. -/
theorem operandWordWriteKeepsOtherWords : Obligations.OperandWordWriteKeepsOtherWords := by
  intro s x i w rest hs hb hlegal hx hi
  exact ⟨setWordOf (s.wide x) i w, step_write_operand hs ((isOperand_iff x).2 hx) hb hlegal hi,
    fun j => wordOf_setWordOf _ _ j _⟩

/-- Settles O15: none of these places takes a word. -/
theorem writesToReadOnlyPlacesAreIgnored : Obligations.WritesToReadOnlyPlacesAreIgnored := by
  intro s off w rest hs hlegal hoff
  rcases hoff with hoff | ⟨x, i, hx, hi, rfl⟩
  · obtain rfl | rfl | rfl : off = 0x0000 ∨ off = 0x0008 ∨ off = 0x0010 := by simpa using hoff
    · exact step_write hs (by decide) (by decide) (placeOf_param _) nofun
    · exact step_write hs (by decide) (by decide) (placeOf_status _) nofun
    · exact step_write hs (by decide) (by decide) (placeOf_k _) nofun
  · obtain ⟨hm, hle⟩ := wordOffset_ok x hi (nw_le hlegal)
    rw [step_write hs hm hle (placeOf_word x hi (nw_le hlegal)) nofun,
      writePlace_result ((isOperand_eq_false_iff x).2 hx)]

/-- Settles O16: a reserved place reads zero and takes no word. -/
theorem reservedOffsetsReadZeroIgnoreWrites : Obligations.ReservedOffsetsReadZeroIgnoreWrites := by
  intro s off w rest hm hoff
  have hle : off ≤ 0x7FFC := by omega
  have hp : placeOf s.nw off = .reserved := placeOf_reserved (by omega)
  refine ⟨fun hs => ?_, fun hs => step_write hs hm hle hp nofun⟩
  rw [step_read hs hm hle, memRead, hp, readPlace]

theorem ctrlWord_eq (ie : Bool) : ctrlWord ie = if ie then 1 else 0 := by
  cases ie <;> rfl

/-- Settles O17: the word read is `memRead`, place by place of the map. -/
theorem readReturnsTheRegister : Obligations.ReadReturnsTheRegister := by
  intro s off rest hs hm hle hlegal
  refine ⟨memRead s off, step_read hs hm hle, ?_, ?_, ?_, ?_, ?_, ?_, fun hoff => ?_⟩
  · rintro rfl
    exact Registers.toNat_paramWord hlegal
  · rintro rfl
    exact ctrlWord_eq s.ie
  · rintro rfl
    rw [memRead, placeOf_status, readPlace]
  · rintro rfl
    rw [memRead, placeOf_cmd, readPlace]
  · rintro rfl
    rw [memRead, placeOf_k, readPlace]
  · rintro x i hi rfl
    rw [memRead, placeOf_word x hi (nw_le hlegal), readPlace, toNat_wordOf]
  · rw [memRead, placeOf_reserved hoff, readPlace]

/-! The random source's step (R75, R204). -/

section
variable {s : State} {a : Nat}

theorem respond_released (hp : s.phase = .waitw) (ha : a < 2 ^ s.opw) :
    respond a s = .next { s with rndPend := false, phase := .exec, witness := some a } := by
  rw [respond, if_pos hp, if_pos ha]

theorem respond_unasked (hp : s.phase ≠ .waitw) : respond a s = .refused .responseWithoutRequest := by
  rw [respond, if_neg hp]

theorem respond_tooWide (hp : s.phase = .waitw) (ha : 2 ^ s.opw ≤ a) :
    respond a s = .refused .responseTooWide := by
  rw [respond, if_pos hp, if_neg (Nat.not_lt.2 ha)]

end

/-- Settles O23. -/
theorem responseReleasesTheEngine : Obligations.ResponseReleasesTheEngine :=
  fun _ _ _ hs hp ha => (step_turn hs).trans (respond_released hp ha)

/-- Settles O24. -/
theorem unaskedResponseIsRefused : Obligations.UnaskedResponseIsRefused :=
  fun _ _ _ hs => ⟨fun hp => (step_turn hs).trans (respond_unasked hp),
    fun hp ha => (step_turn hs).trans (respond_tooWide hp ha)⟩

/-! Which turns stop a step (R220). -/

section
variable {s : State}

/-- The engine's step never stops the machine: CLR is never accepted (R201), and every other word has an end. -/
theorem engineStep_next (hclr : decode s.cmdreg ≠ .instr .clr) : ∃ t, engineStep s = .next t := by
  unfold engineStep
  split
  · exact ⟨_, rfl⟩
  · rename_i i hd
    obtain ⟨t, ht, -⟩ := exec_end i s
    have hi : i ≠ .clr := by
      rintro rfl
      exact hclr hd
    exact ⟨t, (if_neg hi).trans ht⟩

theorem engineTurn_next (h : Inv s) : ∃ t, engineTurn s = .next t := by
  unfold engineTurn
  split
  · rename_i hp
    exact engineStep_next (h.noClr (by simp [hp]))
  · exact ⟨s, rfl⟩

/-- A turn that its agent has is taken. -/
theorem takeTurn_next {t : Turn} (h : Inv s) (ht : TurnOk s t) : ∃ u, takeTurn t s = .next u := by
  cases t with
  | host x => exact hostAccess_taken ht s
  | reset => exact ⟨_, rfl⟩
  | engine => exact engineTurn_next h
  | respond a => exact ⟨_, respond_released ht.1 ht.2⟩

/-- A turn that its agent does not have is refused. -/
theorem takeTurn_refused {t : Turn} (ht : ¬ TurnOk s t) : ∃ r, takeTurn t s = .refused r := by
  cases t with
  | host x =>
    obtain ⟨r, hr⟩ := Option.ne_none_iff_exists'.1 (mt refusalOf_eq_none.1 ht)
    exact ⟨r, hostAccess_refused hr s⟩
  | reset | engine => exact absurd trivial ht
  | respond a =>
    by_cases hp : s.phase = .waitw
    · exact ⟨_, respond_tooWide hp (Nat.not_lt.1 fun ha => ht ⟨hp, ha⟩)⟩
    · exact ⟨_, respond_unasked hp⟩

/-- A step answers a next state, and no turn is malformed; or it is refused, for a turn that is. -/
theorem step_next_or_refused (h : Inv s) :
    ((∃ t, step s = .next t) ∧ ∀ turn rest, s.schedule = turn :: rest → TurnOk s turn) ∨
    ((∃ r, step s = .refused r) ∧ ∃ turn rest, s.schedule = turn :: rest ∧ ¬ TurnOk s turn) := by
  cases hs : s.schedule with
  | nil => exact .inl ⟨by rw [step_engine (.inr ⟨hs, rfl⟩)]; exact engineTurn_next h, nofun⟩
  | cons turn rest =>
    have hsame : TurnOk { s with schedule := rest } turn ↔ TurnOk s turn := by cases turn <;> rfl
    rw [step_turn hs]
    by_cases ht : TurnOk s turn
    · refine .inl ⟨takeTurn_next (Registers.inv_withSchedule h rest) (hsame.2 ht), ?_⟩
      rintro _ _ ⟨⟩
      exact ht
    · exact .inr ⟨takeTurn_refused (mt hsame.1 ht), turn, rest, rfl, ht⟩

end

/-- Settles O27: a step that answers a next state is no refusal, and neither end is a fault. -/
theorem stepStopsOnlyOnMalformedTurns : Obligations.StepStopsOnlyOnMalformedTurns := by
  intro s h
  rcases step_next_or_refused h with ⟨⟨t, hstep⟩, hok⟩ | ⟨⟨r, hstep⟩, hbad⟩
  · refine ⟨by simp [hstep], iff_of_false (by simp [hstep]) ?_⟩
    rintro ⟨turn, rest, hs, hbad⟩
    exact hbad (hok turn rest hs)
  · exact ⟨by simp [hstep], iff_of_true ⟨r, hstep⟩ hbad⟩

end Sys2Proof.Memory
end

section
/-! PROOFS. The encoding family (spec/30_encoding.md): decode and encode are inverse, the opcode map, the illegal
words, dropped writes of a busy block, and the host-script line `WRW`. -/

namespace Sys2Proof.Encoding

open Sys2Proof.Machine

/-! The fields of a word (R9, R91, R92). -/

/-- A word is its opcode byte, its immediate field and its top byte, each at its position. -/
theorem toNat_eq_fields (w : Word) :
    w.toNat = field w 7 0 + field w 23 8 * 2 ^ 8 + field w 31 24 * 2 ^ 24 := by
  have hw := w.isLt
  simp only [field]
  omega

theorem eq_iff_fields {v w : Word} :
    v = w ↔ field v 7 0 = field w 7 0 ∧ field v 23 8 = field w 23 8 ∧ field v 31 24 = field w 31 24 := by
  refine ⟨by rintro rfl; exact ⟨rfl, rfl, rfl⟩, fun ⟨hop, himm, htop⟩ => BitVec.eq_of_toNat_eq ?_⟩
  rw [toNat_eq_fields v, toNat_eq_fields w, hop, himm, htop]

/-- The must-be-zero field of format Z is the immediate field and the top byte of format I. -/
theorem field_31_8_eq_zero {w : Word} : field w 31 8 = 0 ↔ field w 23 8 = 0 ∧ field w 31 24 = 0 := by
  simp only [field]
  omega

theorem field_and (v w : Word) (hi lo : Nat) : field (v &&& w) hi lo = field v hi lo &&& field w hi lo := by
  simp only [field, BitVec.toNat_and, Nat.and_div_two_pow, Nat.and_mod_two_pow]

/-- All ones in a field of eight bits mask nothing out of it. -/
theorem field_and_byte {w : Word} {hi lo : Nat} (h : hi + 1 - lo = 8) : field w hi lo &&& 255 = field w hi lo := by
  have hlt := field_lt w hi lo
  rw [h] at hlt
  exact (Nat.and_two_pow_sub_one_eq_mod _ 8).trans (Nat.mod_eq_of_lt hlt)

/-! The commands' own fields (R91 to R94). -/

theorem opcodeByte : ∀ i : Instr, Laws.OpcodeByte.Statement i
  | .clr => Laws.OpcodeByte.clr
  | .modmul => Laws.OpcodeByte.modmul
  | .modexp => Laws.OpcodeByte.modexp
  | .split2 => Laws.OpcodeByte.split2
  | .xgcd => Laws.OpcodeByte.xgcd
  | .modinv => Laws.OpcodeByte.modinv
  | .sfcheck => Laws.OpcodeByte.sfcheck
  | .mrtest rounds => Laws.OpcodeByte.mrtest rounds
  | .ptest => Laws.OpcodeByte.ptest

/-- The three fields of a well-formed command's word. -/
theorem encode_fields {i : Instr} (h : i.wellFormed = true) :
    field (encode i) 7 0 = i.opcode ∧ field (encode i) 23 8 = i.imm16 ∧ field (encode i) 31 24 = 0 := by
  obtain ⟨hop, htop⟩ := opcodeByte i h
  refine ⟨hop, ?_, htop⟩
  have hfields := toNat_eq_fields (encode i)
  rw [encode_toNat h, hop, htop] at hfields
  omega

/-- A word with the fields of a well-formed command is that command's word. -/
theorem encode_eq_of_fields {i : Instr} {w : Word} (h : i.wellFormed = true) (hop : i.opcode = field w 7 0)
    (himm : i.imm16 = field w 23 8) (htop : field w 31 24 = 0) : encode i = w := by
  obtain ⟨eop, eimm, etop⟩ := encode_fields h
  exact eq_iff_fields.2 ⟨eop.trans hop, eimm.trans himm, etop.trans htop.symm⟩

/-- Every command but MRTEST is the Z-format command of its opcode. -/
theorem zCommand_opcode_or_mrtest (i : Instr) : zCommand i.opcode = some i ∨ ∃ rounds, i = .mrtest rounds := by
  cases i with
  | mrtest rounds => exact .inr ⟨rounds, rfl⟩
  | _ => exact .inl rfl

/-- Every opcode up to 0x08 but MRTEST's is a Z-format command's. -/
theorem zCommand_ne_none : ∀ n < 9, n ≠ 7 → zCommand n ≠ none := by
  decide

/-! What decode does (R95, R96). -/

/-- Every way a word decodes. -/
inductive DecodeEnd (w : Word) : Decoded → Prop where
  | zFormat (i : Instr) (hz : zCommand (field w 7 0) = some i) (h0 : field w 31 8 = 0) : DecodeEnd w (.instr i)
  | mrtest (h7 : field w 7 0 = 7) (h0 : field w 31 24 = 0) : DecodeEnd w (.instr (.mrtest (field w 23 8)))
  | zeroFieldZ (i : Instr) (hz : zCommand (field w 7 0) = some i) (h0 : field w 31 8 ≠ 0) :
      DecodeEnd w (.illegal .zeroFieldZ)
  | zeroFieldI (h7 : field w 7 0 = 7) (h0 : field w 31 24 ≠ 0) : DecodeEnd w (.illegal .zeroFieldI)
  | opcode (h7 : field w 7 0 ≠ 7) (hz : zCommand (field w 7 0) = none) : DecodeEnd w (.illegal .opcode)

theorem decode_inv {w : Word} {d : Decoded} (h : decode w = d) : DecodeEnd w d := by
  subst h
  unfold decode
  split
  · split
    · exact .mrtest ‹_› ‹_›
    · exact .zeroFieldI ‹_› ‹_›
  · split
    · split
      · exact .zFormat _ ‹_› ‹_›
      · exact .zeroFieldZ _ ‹_› ‹_›
    · exact .opcode ‹_› ‹_›

theorem decode_zFormat {w : Word} {i : Instr} (hz : zCommand (field w 7 0) = some i) (h0 : field w 31 8 = 0) :
    decode w = .instr i := by
  obtain ⟨-, -, -, -, h7⟩ := zCommand_inv hz
  simp only [decode, if_neg h7, hz, if_pos h0]

theorem decode_mrtest {w : Word} (h7 : field w 7 0 = 7) (h0 : field w 31 24 = 0) :
    decode w = .instr (.mrtest (field w 23 8)) := by
  rw [decode, if_pos h7, if_pos h0]

/-! Decode and encode (R93, R95). -/

/-- Settles O1: the word has the command's fields, and those select the command's branch of decode. -/
theorem decodeOfEncodeIsIdentity : Obligations.DecodeOfEncodeIsIdentity := by
  intro i hwf
  obtain ⟨hop, himm, htop⟩ := encode_fields hwf
  rcases zCommand_opcode_or_mrtest i with hz | ⟨rounds, rfl⟩
  · obtain ⟨-, himm0, -⟩ := zCommand_inv hz
    exact decode_zFormat (hop ▸ hz) (field_31_8_eq_zero.2 ⟨himm.trans himm0, htop⟩)
  · rw [decode_mrtest hop htop, himm, Instr.imm16]

/-- Settles O2: in both branches that yield a command, the command's word has the fields of the word decoded. -/
theorem encodeOfDecodeIsIdentity : Obligations.EncodeOfDecodeIsIdentity := by
  intro w i hd
  cases decode_inv hd with
  | zFormat _ hz h0 =>
    obtain ⟨hop, himm, hwf, -⟩ := zCommand_inv hz
    obtain ⟨hmid, htop⟩ := field_31_8_eq_zero.1 h0
    exact ⟨hwf, encode_eq_of_fields hwf hop (himm.trans hmid.symm) htop⟩
  | mrtest h7 h0 =>
    have hwf : (Instr.mrtest (field w 23 8)).wellFormed = true :=
      decide_eq_true (Nat.le_of_lt_succ (field_lt w 23 8))
    exact ⟨hwf, encode_eq_of_fields hwf h7.symm rfl h0⟩

/-- A command has exactly one word, and only a well-formed one has any (R93, R95). -/
theorem decode_eq_instr_iff {w : Word} {i : Instr} : decode w = .instr i ↔ i.wellFormed = true ∧ encode i = w := by
  refine ⟨encodeOfDecodeIsIdentity w i, ?_⟩
  rintro ⟨hwf, rfl⟩
  exact decodeOfEncodeIsIdentity i hwf

/-! The opcode map (R94). -/

/-- The rows of R94: MRTEST's, which leaves the immediate open, and one for each Z-format command's whole word. -/
theorem opcodeTable_rows {row : OpcodeRow} (h : row ∈ opcodeTable) :
    row = ⟨"MRTEST", 0x00000007#32, 0xFF0000FF#32⟩ ∨
      ∃ i : Instr, zCommand i.opcode = some i ∧ row = ⟨i.mnemonic, encode i, BitVec.allOnes 32⟩ := by
  simp only [opcodeTable, List.mem_cons, List.not_mem_nil, or_false] at h
  rcases h with h | h | h | h | h | h | h | h | h
  · exact .inr ⟨.clr, rfl, h⟩
  · exact .inr ⟨.modmul, rfl, h⟩
  · exact .inr ⟨.modexp, rfl, h⟩
  · exact .inr ⟨.split2, rfl, h⟩
  · exact .inr ⟨.xgcd, rfl, h⟩
  · exact .inr ⟨.modinv, rfl, h⟩
  · exact .inr ⟨.sfcheck, rfl, h⟩
  · exact .inl h
  · exact .inr ⟨.ptest, rfl, h⟩

theorem mnemonic_eq_mrtest {i : Instr} : i.mnemonic = "MRTEST" ↔ ∃ rounds, i = .mrtest rounds := by
  cases i <;> simp [Instr.mnemonic]

/-- The row that bears a command's mnemonic has the command's opcode as match bits. -/
theorem opcode_of_mnemonic (i : Instr) :
    (opcodeTable.find? fun row => row.mnemonic = i.mnemonic).map (fun row => row.matchBits.toNat) = some i.opcode := by
  cases i <;> rfl

/-- No other command bears a Z-format command's mnemonic. -/
theorem eq_of_mnemonic_eq {i j : Instr} (hz : zCommand i.opcode = some i) (h : j.mnemonic = i.mnemonic) : j = i := by
  have hop : j.opcode = i.opcode := by
    have hj := opcode_of_mnemonic j
    rw [h, opcode_of_mnemonic i] at hj
    exact (Option.some.inj hj).symm
  rw [← hop] at hz
  rcases zCommand_opcode_or_mrtest j with hj | ⟨rounds, rfl⟩
  · exact Option.some.inj (hj.symm.trans hz)
  · cases hz

/-- MRTEST's mask covers the opcode and the top byte (R92, R94). -/
theorem and_mrtestMask_eq_match {w : Word} :
    w &&& 0xFF0000FF#32 = 0x00000007#32 ↔ field w 7 0 = 7 ∧ field w 31 24 = 0 := by
  have hmask : field 0xFF0000FF#32 7 0 = 255 ∧ field 0xFF0000FF#32 23 8 = 0 ∧ field 0xFF0000FF#32 31 24 = 255 := by
    decide
  have hmatch : field 0x00000007#32 7 0 = 7 ∧ field 0x00000007#32 23 8 = 0 ∧ field 0x00000007#32 31 24 = 0 := by
    decide
  obtain ⟨m0, m1, m2⟩ := hmask
  obtain ⟨b0, b1, b2⟩ := hmatch
  rw [eq_iff_fields, field_and, field_and, field_and, m0, m1, m2, b0, b1, b2, field_and_byte rfl,
    field_and_byte rfl, Nat.and_zero]
  simp

theorem decode_isMrtest_iff {w : Word} :
    (∃ rounds, decode w = .instr (.mrtest rounds)) ↔ field w 7 0 = 7 ∧ field w 31 24 = 0 := by
  refine ⟨fun ⟨rounds, hd⟩ => ?_, fun ⟨h7, h0⟩ => ⟨_, decode_mrtest h7 h0⟩⟩
  obtain ⟨hwf, rfl⟩ := decode_eq_instr_iff.1 hd
  obtain ⟨hop, -, htop⟩ := encode_fields hwf
  exact ⟨hop, htop⟩

/-- Settles O3: MRTEST's row asks for the two fields that decode asks for, any other row for one whole word. -/
theorem decodeAgreesWithOpcodeMap : Obligations.DecodeAgreesWithOpcodeMap := by
  intro w row hrow
  rcases opcodeTable_rows hrow with rfl | ⟨i, hz, rfl⟩
  · rw [and_mrtestMask_eq_match, ← decode_isMrtest_iff]
    constructor
    · rintro ⟨rounds, hd⟩
      exact ⟨_, hd, rfl⟩
    · rintro ⟨i, hd, hi⟩
      obtain ⟨rounds, rfl⟩ := mnemonic_eq_mrtest.1 hi
      exact ⟨rounds, hd⟩
  · obtain ⟨-, -, hwf, -⟩ := zCommand_inv hz
    rw [BitVec.and_allOnes]
    constructor
    · rintro rfl
      exact ⟨i, decodeOfEncodeIsIdentity i hwf, rfl⟩
    · rintro ⟨j, hd, hj⟩
      obtain rfl := eq_of_mnemonic_eq hz hj
      exact (decode_eq_instr_iff.1 hd).2.symm

/-- Settles O4: the three reserved shapes are what the five ends of decode leave for the illegal words. -/
theorem illegalWordsAreExactlyTheReserved : Obligations.IllegalWordsAreExactlyTheReserved := by
  intro w
  cases hd : decode w with
  | instr i =>
    refine iff_of_false nofun ?_
    cases decode_inv hd with
    | zFormat _ hz h0 =>
      obtain ⟨-, -, -, hle, h7⟩ := zCommand_inv hz
      omega
    | mrtest h7 h0 => omega
  | illegal why =>
    refine iff_of_true ⟨why, rfl⟩ ?_
    cases decode_inv hd with
    | zeroFieldZ i hz h0 =>
      obtain ⟨-, -, -, hle, h7⟩ := zCommand_inv hz
      exact .inr (.inl ⟨hle, h7, h0⟩)
    | zeroFieldI h7 h0 => exact .inr (.inr ⟨h7, h0⟩)
    | opcode h7 hz => exact .inl (Nat.le_of_not_lt fun hlt => zCommand_ne_none _ hlt h7 hz)

/-- Settles O5: fixed words, each evaluated. -/
theorem sampleWordsDecodeAsWritten : Obligations.SampleWordsDecodeAsWritten := by
  unfold Obligations.SampleWordsDecodeAsWritten
  decide

/-! Writes to a busy block (R39, R67, R97). -/

section
variable {s : State} {v : Word} {rest : List Turn}

theorem step_write_cmd (hs : s.schedule = .host (.write 0x000C 4 v) :: rest) :
    step s = writeCmd v { s with schedule := rest } := by
  have hok : accessRefusal 0x000C 4 = none := rfl
  exact ((Memory.step_turn hs).trans (Memory.hostAccess_write hok v _)).trans (if_pos (placeOf_cmd _))

theorem writeCmd_busy (hb : s.status.busy = true) : writeCmd v s = .next (dropWrite s) :=
  if_pos hb

theorem writePlace_operand_busy {x : WideReg} (hx : x.isOperand = true) (hb : s.status.busy = true) (i : Nat) :
    writePlace v s (.word x i) = dropWrite s := by
  rw [writePlace, writeWord, if_pos hx, if_pos hb]

end

/-- Settles O11: both kinds of place drop the write. -/
theorem writeWhileBusyOnlySetsBusywr : Obligations.WriteWhileBusyOnlySetsBusywr := by
  intro s off w rest hs hb hlegal hoff
  rcases hoff with rfl | ⟨x, i, hx, hi, rfl⟩
  · exact (step_write_cmd hs).trans (writeCmd_busy hb)
  · obtain ⟨hm, hle⟩ := Memory.wordOffset_ok x hi (nw_le hlegal)
    rw [Memory.step_write hs hm hle (placeOf_word x hi (nw_le hlegal)) nofun,
      writePlace_operand_busy (s := { s with schedule := rest }) ((Memory.isOperand_iff x).2 hx) hb, dropWrite]

/-! The host-script line `WRW` (R98, R270). -/

/-- A word write that follows the words below it leaves those and itself at the value being written. -/
theorem setWordOf_wordOf_mod {u v i : Nat} (h : u % 2 ^ (32 * i) = v % 2 ^ (32 * i)) :
    setWordOf u i (wordOf v i) % 2 ^ (32 * (i + 1)) = v % 2 ^ (32 * (i + 1)) := by
  obtain ⟨hlow, hmid, -⟩ := setWordOf_parts u i (wordOf v i)
  rw [pow_word_succ, mul_comm (2 ^ 32), Nat.mod_mul, Nat.mod_mul, hlow, hmid, h, toNat_wordOf]

theorem setWide_withSchedule_setWide (s : State) (x : WideReg) (u v : Nat) (l l' : List Turn) :
    { { s with schedule := l }.setWide x u with schedule := l' }.setWide x v =
      { s with schedule := l' }.setWide x v := by
  cases x <;> rfl

theorem setWide_self (s : State) (x : WideReg) : s.setWide x (s.wide x) = s := by
  cases x <;> rfl

/-- `WRW` of `v` to `x` before its write of word `i` (R98): the last `k` writes come next on an idle block, and the
words below `i` are those of `v`. -/
structure WritingFrom (x : WideReg) (v : Nat) (rest : List Turn) (i k : Nat) (s : State) : Prop where
  pending : s.schedule = (List.range' i k).map (fun j => .host (.write (x.base + 4 * j) 4 (wordOf v j))) ++ rest
  idle    : s.status.busy = false
  legal   : s.params.Legal
  count   : i + k = s.nw
  fits    : s.wide x < 2 ^ (32 * s.nw)
  below   : s.wide x % 2 ^ (32 * i) = v % 2 ^ (32 * i)

section
variable {x : WideReg} {v i k : Nat} {rest : List Turn} {s : State}

/-- One word write goes on to the next word; what the line is to end in does not depend on the word replaced. -/
theorem writingFrom_step (hx : x.isOperand = true) (h : WritingFrom x v rest i (k + 1) s) :
    ∃ t, step s = .next t ∧ WritingFrom x v rest (i + 1) k t ∧
      { t with schedule := rest }.setWide x v = { s with schedule := rest }.setWide x v := by
  obtain ⟨hs, hidle, hlegal, hcount, hfits, hbelow⟩ := h
  rw [List.range'_succ, List.map_cons, List.cons_append] at hs
  have hi : i < s.nw := by omega
  have hnw (l : List Turn) (u : Nat) : ({ s with schedule := l }.setWide x u).nw = s.nw :=
    nw_congr (setWide_params _ x u)
  refine ⟨_, Memory.step_write_operand hs hx hidle hlegal hi, ?_, setWide_withSchedule_setWide _ _ _ _ _ _⟩
  exact {
    pending := setWide_schedule _ x _
    idle := by rwa [setWide_status]
    legal := by rwa [setWide_params]
    count := by rw [hnw]; omega
    fits := by rw [hnw, wide_setWide, if_pos rfl]; exact setWordOf_lt _ hfits hi
    below := by rw [wide_setWide, if_pos rfl]; exact setWordOf_wordOf_mod hbelow }

/-- With no write to come, all words are those of `v`. -/
theorem writingFrom_done (hv : v < 2 ^ (32 * s.nw)) (h : WritingFrom x v rest i 0 s) :
    s = { s with schedule := rest }.setWide x v := by
  obtain ⟨hs, -, -, hi, hfits, hbelow⟩ := h
  obtain rfl : i = s.nw := hi
  obtain rfl : s.schedule = rest := hs
  rw [Nat.mod_eq_of_lt hfits, Nat.mod_eq_of_lt hv] at hbelow
  rw [← hbelow, setWide_self]

end

theorem run_writingFrom {x : WideReg} {v : Nat} {rest : List Turn} (hx : x.isOperand = true) (k : Nat) :
    ∀ (i : Nat) (s : State), WritingFrom x v rest i k s → v < 2 ^ (32 * (i + k)) →
      Host.Core.run Sys2Proof.core k s = .next ({ s with schedule := rest }.setWide x v) := by
  induction k with
  | zero =>
    intro i s h hv
    exact congrArg _ (writingFrom_done (h.count ▸ hv) h)
  | succ k ih =>
    intro i s h hv
    obtain ⟨t, ht, hnext, heq⟩ := writingFrom_step hx h
    rw [run_step k ht, ih (i + 1) t hnext (by rwa [Nat.add_right_comm]), heq]

/-- Settles O13: before word 0 nothing has to agree. -/
theorem writingAllWordsSetsTheOperand : Obligations.WritingAllWordsSetsTheOperand := by
  intro s x v rest hs hb hlegal hx hu hv
  rw [opw_eq hlegal] at hu hv
  rw [List.range_eq_range'] at hs
  refine run_writingFrom ((Memory.isOperand_iff x).2 hx) s.nw 0 s ⟨hs, hb, hlegal, Nat.zero_add _, hu, ?_⟩ ?_
  · rw [Nat.mul_zero, pow_zero, Nat.mod_one, Nat.mod_one]
  · rwa [Nat.zero_add]

end Sys2Proof.Encoding
end

section
/-! PROOFS. The multiplier family (spec/40_modmul.md): what MODMUL answers and its arithmetic laws. -/

namespace Sys2Proof.Modmul

open Sys2Proof.Machine

section
variable {s : State}

/-- MODMUL of a non-zero modulus completes with the reduced product in R (R110). -/
theorem exec_modmul_completes (hn : s.regN ≠ 0) :
    exec .modmul s = .next (complete { s with regR := s.regA * s.regB % s.regN }) := by
  obtain ⟨h0, -⟩ | ⟨-, hs⟩ := execModmul_cases s
  · exact absurd h0 hn
  · exact hs

/-- MODMUL of modulus 0 faults (R111). -/
theorem exec_modmul_faults (h0 : s.regN = 0) : exec .modmul s = .next (raiseFault .operand s) := by
  obtain ⟨-, hs⟩ | ⟨hn, -⟩ := execModmul_cases s
  · exact hs
  · exact absurd h0 hn

end

/-- Factors that are equal or exchanged have one product. -/
theorem mul_eq_mul_of_same_or_exchanged {a b c d : Nat} (h : c = a ∧ d = b ∨ c = b ∧ d = a) : c * d = a * b := by
  rcases h with ⟨rfl, rfl⟩ | ⟨rfl, rfl⟩
  · rfl
  · exact Nat.mul_comm _ _

/-- Settles O40: R is the product of the factors modulo N, and each law is one of that remainder. -/
theorem modmulLaws : Obligations.ModmulLaws := by
  intro s hn
  refine ⟨_, exec_modmul_completes hn, ?_, ?_, ?_, ?_, ?_⟩ <;> simp only [complete_regR]
  · exact Nat.mod_lt _ (Nat.pos_of_ne_zero hn)
  · intro s' hN hAB
    refine ⟨_, exec_modmul_completes (hN ▸ hn), ?_⟩
    rw [complete_regR, hN, mul_eq_mul_of_same_or_exchanged hAB]
  · exact Nat.mul_mod _ _ _
  · intro hB
    rw [hB, Nat.mul_one]
  · exact Nat.mod_eq_of_lt

/-- Settles O39: the two states are those of `complete` and of the operand fault, written out. -/
theorem modmulComputesTheProductModN : Obligations.ModmulComputesTheProductModN :=
  fun _ => ⟨exec_modmul_completes, exec_modmul_faults⟩

end Sys2Proof.Modmul
end

section
/-! PROOFS. The exponentiation family (spec/41_modexp.md): what MODEXP answers. -/

namespace Sys2Proof.Modexp

open Sys2Proof.Machine

section
variable {s : State}

/-- MODEXP of a non-zero modulus completes with the modular power in R (R120). -/
theorem exec_modexp_completes (hn : s.regN ≠ 0) :
    ∃ w, exec .modexp s = .next (complete { s with exp := w, regR := modPow s.regA s.regE s.regN }) := by
  obtain ⟨h0, -⟩ | ⟨-, hs⟩ := execModexp_cases s
  · exact absurd h0 hn
  · exact hs

/-- MODEXP of modulus 0 faults, whatever the exponent (R122). -/
theorem exec_modexp_faults (h0 : s.regN = 0) : exec .modexp s = .next (raiseFault .operand s) := by
  obtain ⟨-, hs⟩ | ⟨hn, -⟩ := execModexp_cases s
  · exact hs
  · exact absurd h0 hn

end

/-- Settles O41: R is `modPow`, which is the reduced power by the loop's invariant, except that the initial 1 stands
unreduced when the loop does not run (R122). -/
theorem modexpComputesThePower : Obligations.ModexpComputesThePower := by
  refine fun s => ⟨fun hn => ?_, exec_modexp_faults⟩
  obtain ⟨w, hs⟩ := exec_modexp_completes hn
  refine ⟨w, modPow s.regA s.regE s.regN, hs, modPow_eq _ _ _ hn, fun _ hE => ?_⟩
  rw [hE, modPow_zero]

end Sys2Proof.Modexp
end

section
/-! PROOFS. The power-of-two split family (spec/42_split2.md): what SPLIT2 answers. -/

namespace Sys2Proof.Split

open Sys2Proof.Machine

section
variable {s : State}

/-- SPLIT2 of a non-zero operand completes with the exponent of two in K and the odd part in R (R135). -/
theorem exec_split2_completes (hA : s.regA ≠ 0) :
    exec .split2 s = .next (complete { s with
      regK := BitVec.ofNat 32 (split2 s.regA).1
      regR := (split2 s.regA).2 }) := by
  obtain ⟨h0, -⟩ | ⟨-, hs⟩ := execSplit2_cases s
  · exact absurd h0 hA
  · exact hs

/-- SPLIT2 of operand 0 faults (R136). -/
theorem exec_split2_faults (h0 : s.regA = 0) : exec .split2 s = .next (raiseFault .operand s) := by
  obtain ⟨-, hs⟩ | ⟨hA, -⟩ := execSplit2_cases s
  · exact hs
  · exact absurd h0 hA

/-- The exponent of two of an operand within the width is below the width (R135). -/
theorem split2_exponent_lt_opw (hA : s.regA ≠ 0) (hlt : s.regA < 2 ^ s.opw) : (split2 s.regA).1 < s.opw := by
  obtain ⟨-, -, hk⟩ := split2_spec s.regA hA
  exact hk.trans_le (bitlen_le_of_lt hlt)

/-- K holds any number below the width as itself: no bit is lost in its 32 (R25). -/
theorem toNat_ofNat_of_lt_opw {k : Nat} (hlegal : s.params.Legal) (hk : k < s.opw) :
    (BitVec.ofNat 32 k).toNat = k := by
  obtain ⟨-, -, hopw⟩ := hlegal
  unfold State.opw at hk
  rw [BitVec.toNat_ofNat]
  exact Nat.mod_eq_of_lt (by omega)

end

/-- Settles O43: K and R are the two parts that `split2` gives, and the exponent survives the cut to K's 32 bits because
it is below the width. -/
theorem split2GivesTheOddPart : Obligations.Split2GivesTheOddPart := by
  refine fun s => ⟨fun hA hlegal hlt => ?_, exec_split2_faults⟩
  obtain ⟨hprod, hodd, -⟩ := split2_spec s.regA hA
  have hk := split2_exponent_lt_opw hA hlt
  refine ⟨BitVec.ofNat 32 (split2 s.regA).1, (split2 s.regA).2, exec_split2_completes hA, ?_⟩
  rw [toNat_ofNat_of_lt_opw hlegal hk]
  exact ⟨hprod, hodd, hk, Nat.le_of_dvd (Nat.pos_of_ne_zero hA) (Dvd.intro_left _ hprod.symm)⟩

end Sys2Proof.Split
end

section
/-! PROOFS. The extended-Euclidean family (spec/43_euclid.md): what MODINV answers. -/

namespace Sys2Proof.Euclid

open Sys2Proof.Machine

/-! The inverse: the floor modulus of a Bezout coefficient (R155, R156). -/

section
variable {a n : Nat} {c d : Int}

theorem natCast_inverseOf (c : Int) (hn : n ≠ 0) : (inverseOf c n : Int) = c % n :=
  Int.toNat_of_nonneg (Int.emod_nonneg c (Int.natCast_ne_zero.2 hn))

theorem inverseOf_lt (c : Int) (hn : n ≠ 0) : inverseOf c n < n := by
  have hlt : c % (n : Int) < n := Int.emod_lt_of_pos c (Int.natCast_pos.2 (Nat.pos_of_ne_zero hn))
  rw [← natCast_inverseOf c hn] at hlt
  exact Int.ofNat_lt.1 hlt

/-- Reduction modulo `n` keeps the coefficient's residue, and a Bezout identity for 1 is an inverse modulo `n`. -/
theorem mul_inverseOf_mod (hn : n ≠ 0) (hbezout : (a : Int) * c + n * d = 1) :
    a * inverseOf c n % n = 1 % n := by
  refine (Int.natCast_modEq_iff (n := n)).1 ?_
  push_cast
  calc (a : Int) * inverseOf c n
      = a * (c % n) := by rw [natCast_inverseOf c hn]
    _ ≡ a * c [ZMOD n] := (Int.mod_modEq c n).mul_left a
    _ ≡ a * c + n * d [ZMOD n] := (Int.modEq_add_fac_self).symm
    _ = 1 := hbezout

end

/-! The three ends of MODINV (R155). -/

section
variable {s : State} {w : EuclidWork}

/-- MODINV writes what `xgcd` answers on A and N when the gcd is 1. -/
theorem exec_modinv_completes (hN : s.regN ≠ 0) (hw : xgcd s.regA s.regN = some w) (hone : w.b = 1) :
    exec .modinv s = .next (complete (writeBezout (inverseOf w.s1 s.regN) w.s1 w.t1 { s with euclid := w })) := by
  obtain ⟨h0, -⟩ | ⟨-, hnone, -⟩ | ⟨-, v, hv, hne, -⟩ | ⟨-, v, hv, -, hs⟩ := execModinv_cases s
  · exact absurd h0 hN
  · simp [hnone] at hw
  · obtain rfl : v = w := Option.some.inj (hv.symm.trans hw)
    exact absurd hone hne
  · obtain rfl : v = w := Option.some.inj (hv.symm.trans hw)
    exact hs

/-- MODINV faults when the gcd that `xgcd` answers is not 1. -/
theorem exec_modinv_not_coprime (hN : s.regN ≠ 0) (hw : xgcd s.regA s.regN = some w) (hne : w.b ≠ 1) :
    exec .modinv s = .next (raiseFault .notCoprime s) := by
  obtain ⟨h0, -⟩ | ⟨-, hnone, -⟩ | ⟨-, v, -, -, hs⟩ | ⟨-, v, hv, hone, -⟩ := execModinv_cases s
  · exact absurd h0 hN
  · simp [hnone] at hw
  · exact hs
  · obtain rfl : v = w := Option.some.inj (hv.symm.trans hw)
    exact absurd hone hne

/-- MODINV of modulus 0 faults, whatever the operand. -/
theorem exec_modinv_faults (h0 : s.regN = 0) : exec .modinv s = .next (raiseFault .operand s) := by
  obtain ⟨-, hs⟩ | ⟨hN, -⟩ | ⟨hN, -⟩ | ⟨hN, -⟩ := execModinv_cases s
  · exact hs
  · exact absurd h0 hN
  · exact absurd h0 hN
  · exact absurd h0 hN

end

/-- Settles O47: `xgcd` on A and N answers the gcd with its coefficients; at gcd 1 the one of A, reduced modulo N, is the
inverse, and XGCD on the same two operands writes the same coefficients. -/
theorem modinvGivesTheInverse : Obligations.ModinvGivesTheInverse := by
  refine fun s hlegal _ hlt => ⟨fun hN hcop => ?_, fun hN hcop => ?_, exec_modinv_faults⟩
  · obtain ⟨w, hw, hg, hbezout, -⟩ := xgcd_spec s.regA s.regN s.opw hN hlt hlegal.2.2
    have hone : w.b = 1 := hg.trans hcop
    have hinv : (s.regA : Int) * w.s1 + s.regN * w.t1 = 1 := by rw [hbezout, hone]; rfl
    exact ⟨w, inverseOf w.s1 s.regN, w.s1, w.t1, exec_modinv_completes hN hw hone, inverseOf_lt w.s1 hN,
      mul_inverseOf_mod hN hinv, natCast_inverseOf w.s1 hN, hinv, _,
      Registers.exec_xgcd_of_some (s := { s with regB := s.regN }) hN hw, hone, rfl, rfl, rfl, rfl⟩
  · obtain ⟨w, hw, hg, -⟩ := xgcd_spec s.regA s.regN s.opw hN hlt hlegal.2.2
    exact exec_modinv_not_coprime hN hw (hg ▸ hcop)

end Sys2Proof.Euclid
end

section
/-! PROOFS. The primality family (spec/44_primality.md): the small-factor check, the two steps of a Miller-Rabin
command, the criterion on a prime candidate, and a whole MRTEST against its uncut pseudocode. -/

namespace Sys2Proof.Primality

open Sys2Proof.Machine Sys2Proof.Safety

/-! The small-factor check (R170, R191). -/

/-- A candidate of 2 or more without a prime factor up to 100 is odd and not below 101: its least prime factor would
be one (R192). -/
theorem odd_and_large_of_no_small_factor {n : Nat} (hn : 2 ≤ n) (h : ∀ p : Nat, p.Prime → p ≤ 100 → ¬ p ∣ n) :
    n % 2 = 1 ∧ 101 ≤ n := by
  have hodd : ¬ 2 ∣ n := h 2 Nat.prime_two (by decide)
  have hmin : ¬ n.minFac ≤ 100 := fun hle => h _ (Nat.minFac_prime (by omega)) hle n.minFac_dvd
  have hle : n.minFac ≤ n := Nat.minFac_le (by omega)
  omega

theorem smallFactorCheck_eq_false {n : Nat} (h : ∃ p : Nat, p.Prime ∧ p ≤ 100 ∧ p ∣ n) :
    smallFactorCheck n = false := by
  obtain ⟨p, hp, hle, hdvd⟩ := h
  exact Bool.eq_false_iff.2 fun htrue => (smallFactorCheck_iff n).1 htrue p hp hle hdvd

/-- Settles O48: the list of the check holds the primes up to 100 and no other number. -/
theorem sfcheckTestsEveryPrimeUpTo100 : Obligations.SfcheckTestsEveryPrimeUpTo100 :=
  fun s => ⟨smallFactorCheck s.regN, rfl, smallFactorCheck_iff s.regN⟩

/-! The ends of a step, and the steps "start" and "round" of R204. -/

/-- `s` with the working values that the step "start" loads for the candidate in N. -/
def loaded (s : State) : State :=
  { s with mr := mrLoad s.regN (mrTestBits s.params (bitlen s.regN)) s.mr }

/-- `s` with the round on witness `a` counted as passed. -/
def passed (a : Nat) (s : State) : State :=
  { s with mr := { s.mr with i := s.mr.i + 1, b := (roundBody s.mr.n s.mr.k s.mr.m a).1 } }

section
variable {rounds a : Nat} {s : State}

/-! With no witness in hand the end of a step leaves that field as it was. -/

theorem raiseFault_of_no_witness (hw : s.witness = none) (c : FaultCode) :
    raiseFault c s = { s with status := s.status.faulted c, phase := .idle, rndPend := false } := by
  rw [raiseFault, hw]

theorem completeVerdict_of_no_witness (hw : s.witness = none) (v : Bool) :
    completeVerdict v s = { s with status := { s.status with verdict := v }.completed, phase := .idle } := by
  rw [completeVerdict, complete, hw]

theorem requestWitness_of_no_witness (hw : s.witness = none) (tb : Nat) :
    requestWitness tb s = { s with outputs := .rndReq (BitVec.ofNat 16 tb) :: s.outputs, rndPend := true,
                                   rndBits := BitVec.ofNat 16 tb, phase := .waitw } := by
  rw [requestWitness, hw]

/-! The two steps of R204, an equation for each way they go. -/

theorem nextRound_last (h : s.mr.i = rounds) : nextRound rounds s = completeVerdict true s :=
  if_pos h

theorem nextRound_draws (h : s.mr.i ≠ rounds) : nextRound rounds s = requestWitness s.mr.tb s :=
  if_neg h

theorem mrStart_faults
    (h : s.regN < 2 ∨ mrTestBits s.params (bitlen s.regN) < 2 ∨ s.opw < mrTestBits s.params (bitlen s.regN)) :
    mrStart rounds s = raiseFault .operand s := by
  obtain ⟨-, hs⟩ | ⟨hN, hlow, hhigh, -⟩ := mrStart_cases rounds s
  · exact hs
  · omega

theorem mrStart_loads (hN : 2 ≤ s.regN) (hlow : 2 ≤ mrTestBits s.params (bitlen s.regN))
    (hhigh : mrTestBits s.params (bitlen s.regN) ≤ s.opw) : mrStart rounds s = nextRound rounds (loaded s) := by
  obtain ⟨hbad, -⟩ | ⟨-, -, -, hs⟩ := mrStart_cases rounds s
  · omega
  · exact hs

theorem execMrtest_loads (hw : s.witness = none) (hN : 2 ≤ s.regN) (hlow : 2 ≤ mrTestBits s.params (bitlen s.regN))
    (hhigh : mrTestBits s.params (bitlen s.regN) ≤ s.opw) :
    execMrtest rounds s = .next (nextRound rounds (loaded s)) := by
  rw [execMrtest_start rounds hw, mrStart_loads hN hlow hhigh]

theorem mrRound_faults (h : a < 2 ∨ 2 ^ s.mr.tb ≤ a) : mrRound rounds a s = raiseFault .witness s :=
  if_pos h

theorem mrRound_passes (ha : ¬ (a < 2 ∨ 2 ^ s.mr.tb ≤ a)) (h : (roundBody s.mr.n s.mr.k s.mr.m a).2 = true) :
    mrRound rounds a s = nextRound rounds (passed a s) :=
  (if_neg ha).trans (if_pos h)

theorem mrRound_fails (ha : ¬ (a < 2 ∨ 2 ^ s.mr.tb ≤ a)) (h : (roundBody s.mr.n s.mr.k s.mr.m a).2 = false) :
    mrRound rounds a s =
      completeVerdict false { s with mr := { s.mr with b := (roundBody s.mr.n s.mr.k s.mr.m a).1 } } :=
  (if_neg ha).trans (if_neg (Bool.eq_false_iff.1 h))

end

/-! Whole steps of the three commands. -/

/-- Settles O49: past the checks the loads are `mrLoad`, and whether a round is left decides between the verdict and
the first draw. -/
theorem mrtestStartChecksThenDraws : Obligations.MrtestStartChecksThenDraws := by
  rintro s rounds tb hw rfl
  refine ⟨fun hbad => ?_, fun hN hlow hhigh => ?_⟩
  · have hstep : exec (.mrtest rounds) s = .next (mrStart rounds s) := execMrtest_start rounds hw
    rw [hstep, mrStart_faults hbad, raiseFault_of_no_witness hw]
    rfl
  · obtain ⟨hprod, hodd, -⟩ := split2_spec (s.regN - 1) (by omega)
    have hstep : exec (.mrtest rounds) s = .next (nextRound rounds (loaded s)) := execMrtest_loads hw hN hlow hhigh
    refine ⟨_, _, hprod, hodd, fun h0 => ?_, fun h1 => ?_⟩
    · rw [hstep, nextRound_last (s := loaded s) h0.symm, completeVerdict_of_no_witness (s := loaded s) hw]
      rfl
    · rw [hstep, nextRound_draws (s := loaded s) (Nat.ne_of_lt h1),
        requestWitness_of_no_witness (s := loaded s) hw]
      rfl

/-- Settles O51: `roundBody` computes the criterion, and each of the three ends is an equation of the step. -/
theorem roundVerdictIsTheMillerRabinCriterion : Obligations.RoundVerdictIsTheMillerRabinCriterion := by
  intro i s rounds a hi hw ha hlt hn _ _
  have hrange : ¬ (a < 2 ∨ 2 ^ s.mr.tb ≤ a) := by omega
  have hstep := exec_round hi hw
  refine ⟨(roundBody s.mr.n s.mr.k s.mr.m a).1, fun hfail => ?_, fun hpass hlast => ?_, fun hpass hmore => ?_⟩
  · rw [hstep, mrRound_fails hrange (Bool.eq_false_iff.2 (mt (roundBody_passes hn).1 hfail))]
    rfl
  · rw [hstep, mrRound_passes hrange ((roundBody_passes hn).2 hpass), nextRound_last (s := passed a s) hlast]
    rfl
  · rw [hstep, mrRound_passes hrange ((roundBody_passes hn).2 hpass), nextRound_draws (s := passed a s) hmore]
    rfl

/-- Settles O54: the check fails, and no round is begun. -/
theorem ptestRejectsSmallFactorsWithoutADraw : Obligations.PtestRejectsSmallFactorsWithoutADraw := by
  intro s hw hfactor
  have hstep : exec .ptest s = .next (completeVerdict false s) :=
    execPtest_filtered hw (smallFactorCheck_eq_false hfactor)
  rw [hstep, completeVerdict_of_no_witness hw]
  rfl

/-- Settles O55: past the check the two commands take the same step "start", and 64 rounds begin with a draw. -/
theorem ptestThenRunsMrtestWith64Rounds : Obligations.PtestThenRunsMrtestWith64Rounds := by
  intro s hw hfactors
  have hstart := execPtest_start hw ((smallFactorCheck_iff s.regN).2 hfactors)
  refine ⟨hstart.trans (execMrtest_start 64 hw).symm, fun hN hlow hhigh => ?_⟩
  rw [mrStart_loads hN hlow hhigh, nextRound_draws (s := loaded s) (by decide : 0 ≠ Config.ptestRounds)] at hstart
  exact ⟨_, hstart, rfl, rfl, rfl, rfl⟩

/-- An accepting step of PTEST has a candidate of 2 or more that passed the small-factor check: at the start because
the step itself checks both, in a later round because the running command carries both. -/
theorem ptest_accepts {s t : State} (hinv : Inv s) (hd : decode s.cmdreg = .instr .ptest)
    (he : exec .ptest s = .next t) (hdone : t.status.done = true) (hverdict : t.status.verdict = true) :
    2 ≤ s.regN ∧ smallFactorCheck s.regN = true := by
  cases hw : s.witness with
  | some a =>
    obtain ⟨-, -, hrun⟩ := hinv.inHand a hw
    exact ⟨hrun.candidate ▸ hrun.atLeast2, hrun.filtered hd⟩
  | none =>
    cases hf : smallFactorCheck s.regN with
    | false =>
      cases (execPtest_filtered hw hf).symm.trans he
      cases hverdict
    | true =>
      cases (execPtest_start hw hf).symm.trans he
      obtain ⟨-, hs⟩ | ⟨hN, -⟩ := mrStart_cases Config.ptestRounds s
      · rw [hs] at hdone
        cases hdone
      · exact ⟨hN, rfl⟩

/-- Settles O56: an accepted candidate passed the check and is 2 or more, and so it is odd and large. -/
theorem ptestAcceptsNoCandidateWithASmallFactor : Obligations.PtestAcceptsNoCandidateWithASmallFactor := by
  intro s t hinv _ hd he hdone hverdict
  obtain ⟨hN, hcheck⟩ := ptest_accepts hinv hd he hdone hverdict
  have hfactors := (smallFactorCheck_iff s.regN).1 hcheck
  obtain ⟨hodd, hlarge⟩ := odd_and_large_of_no_small_factor hN hfactors
  exact ⟨hodd, hlarge, hfactors⟩

/-! The criterion on a prime candidate (R178, R180). -/

/-- In a field, repeated squaring reaches 1 from 1 itself or through -1. -/
theorem eq_one_or_pow_eq_neg_one {F : Type*} [Field F] {x : F} {k : Nat} (h : x ^ 2 ^ k = 1) :
    x = 1 ∨ ∃ j < k, x ^ 2 ^ j = -1 := by
  induction k with
  | zero => exact .inl (by simpa using h)
  | succ k ih =>
    rw [pow_succ, pow_mul, sq] at h
    obtain hone | hneg := mul_self_eq_one_iff.1 h
    · obtain hx | ⟨j, hj, hx⟩ := ih hone
      · exact .inl hx
      · exact .inr ⟨j, hj.trans k.lt_succ_self, hx⟩
    · exact .inr ⟨k, k.lt_succ_self, hneg⟩

/-- A prime candidate passes on any witness it does not divide: by Fermat `k` squarings of `a ^ m` give 1, and modulo a
prime the only square roots of 1 are 1 and -1. -/
theorem roundPasses_of_prime {n k m a : Nat} (hn : n.Prime) (hsplit : n - 1 = 2 ^ k * m) (ha : a % n ≠ 0) :
    RoundPasses n k m a := by
  have : Fact n.Prime := ⟨hn⟩
  have hmod {c d : Nat} (hd : d < n) (h : (c : ZMod n) = d) : c % n = d := by
    rw [(ZMod.natCast_eq_natCast_iff' c d n).1 h, Nat.mod_eq_of_lt hd]
  have hneg : ((n - 1 : Nat) : ZMod n) = -1 := by
    rw [Nat.cast_sub hn.one_le, ZMod.natCast_self, Nat.cast_one, zero_sub]
  have ha0 : (a : ZMod n) ≠ 0 := fun h => ha (Nat.mod_eq_zero_of_dvd ((ZMod.natCast_eq_zero_iff a n).1 h))
  have hfermat : ((a : ZMod n) ^ m) ^ 2 ^ k = 1 := by
    rw [← pow_mul, mul_comm, ← hsplit, ZMod.pow_card_sub_one_eq_one ha0]
  obtain hone | ⟨j, hj, hx⟩ := eq_one_or_pow_eq_neg_one hfermat
  · exact .inl (hmod hn.one_lt (by simpa using hone))
  · have hlast : a ^ (m * 2 ^ j) % n = n - 1 :=
      hmod (Nat.sub_lt hn.pos Nat.one_pos) (by rw [hneg, Nat.cast_pow, pow_mul, hx])
    obtain rfl | hpos := Nat.eq_zero_or_pos j
    · exact .inr (.inl (by simpa using hlast))
    · exact .inr (.inr ⟨j, hpos, hj, hlast⟩)

/-- Settles O52: the round passes, so the step is `nextRound` at the next round index. -/
theorem primeCandidatePassesCoprimeWitnesses : Obligations.PrimeCandidatePassesCoprimeWitnesses := by
  intro i s rounds a hi hw ha hlt hn hsplit hdvd
  obtain ⟨hprod, -, -⟩ := split2_spec (s.mr.n - 1) (Nat.sub_ne_zero_of_lt hn.one_lt)
  rw [← hsplit] at hprod
  have hpass := (roundBody_passes hn.two_le).2 (roundPasses_of_prime hn hprod hdvd)
  refine ⟨_, exec_round hi hw, ?_⟩
  rw [mrRound_passes (by omega) hpass]
  obtain ⟨-, hs⟩ | ⟨-, hs⟩ := nextRound_cases rounds (passed a s) <;> rw [hs]
  · exact ⟨rfl, .inr rfl⟩
  · exact ⟨rfl, .inl rfl⟩

/-! MRTEST from its first step to its end (R175, R204). -/

/-- How the uncut pseudocode goes on with a round to go and an end to come: it draws a witness, and the witness is out
of range, or passes and the rounds after it decide, or fails. -/
theorem mrPseudocode_succ_cases {n tb k m left used : Nat} {ws : List Nat} {v : MrEnd}
    (h : mrPseudocode n tb k m (left + 1) ws = (v, used)) (hv : v ≠ .waiting) :
    ∃ a rest, ws = a :: rest ∧
      (((a < 2 ∨ 2 ^ tb ≤ a) ∧ v = .badWitness ∧ used = 1) ∨
       (¬ (a < 2 ∨ 2 ^ tb ≤ a) ∧ (roundBody n k m a).2 = true ∧
          ∃ used', used = used' + 1 ∧ mrPseudocode n tb k m left rest = (v, used')) ∨
       (¬ (a < 2 ∨ 2 ^ tb ≤ a) ∧ (roundBody n k m a).2 = false ∧ v = .verdict false ∧ used = 1)) := by
  cases ws with
  | nil =>
    cases h
    exact absurd rfl hv
  | cons a rest =>
    refine ⟨a, rest, rfl, ?_⟩
    rw [mrPseudocode] at h
    split at h
    · cases h
      exact .inl ⟨‹_›, rfl, rfl⟩
    · split at h
      · cases h
        exact .inr (.inl ⟨‹_›, ‹_›, _, rfl, rfl⟩)
      · cases h
        exact .inr (.inr ⟨‹_›, Bool.eq_false_iff.2 ‹_›, rfl, rfl⟩)

/-- What MRTEST leaves at its end `v` after `used` draws, from a state `s` between two rounds. -/
structure EndedAs (rest : List Turn) (used : Nat) (v : MrEnd) (s t : State) : Prop where
  phase      : t.phase = .idle
  schedule   : t.schedule = rest
  outputs    : t.outputs = List.replicate used (.rndReq (BitVec.ofNat 16 s.mr.tb)) ++ s.outputs
  verdict    : ∀ b, v = .verdict b → t.status = { s.status with verdict := b, busy := false, done := true }
  badWitness : v = .badWitness → t.status = { s.status with busy := false, done := false, err := true, errcode := 5 }

/-- `s` after the request of a witness and the source's answer `a`, the turns `l` still to come. -/
def withWitness (a : Nat) (l : List Turn) (s : State) : State :=
  { requestWitness s.mr.tb s with schedule := l, rndPend := false, phase := .exec, witness := some a }

section
variable {s : State} {rounds : Nat} {rest : List Turn}

/-- A passed round counts its own draw before those of the rounds after it. -/
theorem EndedAs.of_passed {a used : Nat} {l : List Turn} {v : MrEnd} {t : State}
    (h : EndedAs rest used v (passed a (withWitness a l s)) t) : EndedAs rest (used + 1) v s t where
  phase := h.phase
  schedule := h.schedule
  outputs := by
    rw [h.outputs, List.replicate_succ', List.append_assoc]
    rfl
  verdict := h.verdict
  badWitness := h.badWitness

/-- An engine turn while MRTEST runs is its step. -/
theorem step_mrtest (hs : s.schedule = .engine :: rest) (hp : s.phase = .exec)
    (hd : decode s.cmdreg = .instr (.mrtest rounds)) : step s = execMrtest rounds { s with schedule := rest } := by
  rw [Memory.step_turn hs, takeTurn, engineTurn, if_pos hp, engineStep, hd]
  rfl

/-- A held block whose source answers takes its step "round" on the answer. -/
theorem run_round {a : Nat} {ws : List Nat} (j : Nat) (hs : s.schedule = answers (a :: ws) ++ rest)
    (hd : decode s.cmdreg = .instr (.mrtest rounds)) (ha : a < 2 ^ s.opw) :
    Host.Core.run Sys2Proof.core (2 * (j + 1)) (requestWitness s.mr.tb s) =
      Host.Core.run Sys2Proof.core (2 * j) (mrRound rounds a (withWitness a (answers ws ++ rest) s)) := by
  have hanswer : step (requestWitness s.mr.tb s) = .next (withWitness a (.engine :: (answers ws ++ rest)) s) :=
    (Memory.step_turn (s := requestWitness s.mr.tb s) hs).trans (Memory.respond_released rfl ha)
  have hround : step (withWitness a (.engine :: (answers ws ++ rest)) s) =
      .next (mrRound rounds a (withWitness a (answers ws ++ rest) s)) :=
    (step_mrtest (s := withWitness a (.engine :: (answers ws ++ rest)) s) rfl rfl hd).trans
      (execMrtest_round rounds rfl)
  rw [Nat.mul_succ, run_step _ hanswer, run_step _ hround]

/-- From any state between two rounds, with `left` rounds to go, the run ends as the pseudocode does on the witnesses
the source answers. -/
theorem run_nextRound {used left : Nat} {ws : List Nat} {v : MrEnd} (hd : decode s.cmdreg = .instr (.mrtest rounds))
    (hcount : s.mr.i + left = rounds) (hs : s.schedule = answers (ws.take used) ++ rest)
    (hws : ∀ a ∈ ws, a < 2 ^ s.opw) (hps : mrPseudocode s.mr.n s.mr.tb s.mr.k s.mr.m left ws = (v, used))
    (hv : v ≠ .waiting) :
    ∃ t, Host.Core.run Sys2Proof.core (2 * used) (nextRound rounds s) = .next t ∧ EndedAs rest used v s t := by
  induction left generalizing s ws used with
  | zero =>
    cases hps
    exact ⟨_, congrArg _ (nextRound_last hcount), rfl, hs, rfl, fun b hb => by cases hb; rfl, nofun⟩
  | succ left ih =>
    rw [nextRound_draws (by omega)]
    obtain ⟨a, ws, rfl, hcases⟩ := mrPseudocode_succ_cases hps hv
    have ha := hws a List.mem_cons_self
    rcases hcases with ⟨hbad, rfl, rfl⟩ | ⟨hrange, hpass, used, rfl, hnext⟩ | ⟨hrange, hfail, rfl, rfl⟩
    · rw [run_round (ws := []) 0 hs hd ha, mrRound_faults (s := withWitness a (answers [] ++ rest) s) hbad]
      exact ⟨_, rfl, rfl, rfl, rfl, nofun, fun _ => rfl⟩
    · rw [run_round (ws := ws.take used) used hs hd ha,
        mrRound_passes (s := withWitness a (answers (ws.take used) ++ rest) s) hrange hpass]
      have hcount : s.mr.i + 1 + left = rounds := by omega
      obtain ⟨t, ht, hend⟩ := ih (s := passed a (withWitness a (answers (ws.take used) ++ rest) s)) hd hcount rfl
        (fun b hb => hws b (List.mem_cons_of_mem a hb)) hnext
      exact ⟨t, ht, hend.of_passed⟩
    · rw [run_round (ws := []) 0 hs hd ha, mrRound_fails (s := withWitness a (answers [] ++ rest) s) hrange hfail]
      exact ⟨_, rfl, rfl, rfl, rfl, fun b hb => by cases hb; rfl, nofun⟩

end

/-- Settles O53: the first step loads the working values, and then all rounds are to go. -/
theorem mrtestStepsFollowThePseudocode : Obligations.MrtestStepsFollowThePseudocode := by
  rintro s rounds tb k m used ws rest v hp hw hd hs hN rfl hlow hhigh hsplit hws hps hv
  obtain ⟨rfl, rfl⟩ := Prod.ext_iff.1 hsplit
  have hstart : step s = .next (nextRound rounds (loaded { s with schedule := answers (ws.take used) ++ rest })) :=
    (step_mrtest hs hp hd).trans
      (execMrtest_loads (s := { s with schedule := answers (ws.take used) ++ rest }) hw hN hlow hhigh)
  obtain ⟨t, ht, hphase, hsched, houts, hverdict, hwitness⟩ :=
    run_nextRound (s := loaded { s with schedule := answers (ws.take used) ++ rest }) hd (Nat.zero_add _) rfl hws hps hv
  refine ⟨t, ?_, hphase, hsched, houts, hverdict, hwitness⟩
  rw [Nat.add_comm, run_step _ hstart]
  exact ht

end Sys2Proof.Primality
end

section
/-! PROOFS. The system family (spec/45_system.md): CLR, the acceptance of a word, the engine's turn inside and outside
EXEC, and the commands that end in their one step. -/

namespace Sys2Proof.System

open Sys2Proof.Machine Sys2Proof.Safety

section
variable {s t : State} {i : Instr} {w : Word}

/-- A command that neither runs inside its write nor draws a witness leaves the block idle, by a fault or by its
completion (R203, R205, R206). -/
theorem execEnd_idle (h : ExecEnd s i t) (hclr : i ≠ .clr) (hpt : i ≠ .ptest) (hmr : ∀ rounds, i ≠ .mrtest rounds) :
    t.phase = .idle ∧ t.status.busy = false ∧ t.witness = none := by
  cases h with
  | clr => exact absurd rfl hclr
  | request _ hi =>
    rcases hi with hi | ⟨rounds, hi⟩
    · exact absurd hi hpt
    · exact absurd hi (hmr rounds)
  | fault | modmul | modexp | split2 | bezout | verdict => exact ⟨rfl, rfl, rfl⟩

/-- CLR leaves the interrupt line low, whatever CTRL.IE is (R200, R233). -/
theorem irq_clearStatus (s : State) : (clearStatus s).irq = false := by
  simp [State.irq, Status.cleared]

/-- An idle block performs CLR in the write of its word (R201). -/
theorem writeCmd_clr (hb : s.status.busy = false) (hd : decode w = .instr .clr) : writeCmd w s = exec .clr s := by
  simp [writeCmd, hb, hd]

/-- An idle block accepts any other word, legal or illegal (R202). -/
theorem writeCmd_accepts (hb : s.status.busy = false) (hd : decode w ≠ .instr .clr) :
    writeCmd w s = .next (accept w s) := by
  simp [writeCmd, hb, hd]

/-- In EXEC the engine's turn is its step (R203). -/
theorem engineTurn_exec (hp : s.phase = .exec) : engineTurn s = engineStep s :=
  if_pos hp

/-- Outside EXEC the engine's turn passes (R203, R212). -/
theorem engineTurn_passes (hp : s.phase ≠ .exec) : engineTurn s = .next s :=
  if_neg hp

/-- The engine's step on a word that decodes to a command is that command's meaning (R203). -/
theorem engineStep_instr (hd : decode s.cmdreg = .instr i) (hi : i ≠ .clr) : engineStep s = exec i s := by
  simp only [engineStep, hd, if_neg hi]

end

/-- Settles O37: of the ways a command can end, a request alone does not leave the block idle, and none of these
commands makes one. -/
theorem singleStepCommandsEnd : Obligations.SingleStepCommandsEnd := by
  intro i s hi
  obtain ⟨t, ht, hend⟩ := exec_end i s
  refine ⟨t, ht, execEnd_idle hend ?_ ?_ ?_⟩
  · rintro rfl
    simp at hi
  · rintro rfl
    simp at hi
  · rintro rounds rfl
    simp at hi

/-- Settles O6: the turn the engine is given changes neither PHASE nor CMDREG. -/
theorem engineStepRunsAcceptedCommand : Obligations.EngineStepRunsAcceptedCommand := by
  intro s u i hu hp hd hi
  obtain ⟨l, rfl⟩ := engineNext_same hu
  calc step s = engineTurn { s with schedule := l } := step_engine hu
    _ = engineStep { s with schedule := l } := engineTurn_exec hp
    _ = exec i { s with schedule := l } := engineStep_instr hd hi

/-- Settles O7: the write of the CLR word, to an idle and to a busy block. -/
theorem clrRunsInsideItsWrite : Obligations.ClrRunsInsideItsWrite :=
  fun _ _ _ hs hd => ⟨fun hb => (Encoding.step_write_cmd hs).trans (writeCmd_clr hb hd),
    fun hb => (Encoding.step_write_cmd hs).trans (Encoding.writeCmd_busy hb)⟩

/-- Settles O8: the next state is that of `accept`, written out. -/
theorem acceptanceStartsTheCommand : Obligations.AcceptanceStartsTheCommand :=
  fun _ _ _ hs hb hd => (Encoding.step_write_cmd hs).trans (writeCmd_accepts hb hd)

/-- Settles O10: the turn the engine is given does not change PHASE, so it passes. -/
theorem engineHasNoStepOutsideExec : Obligations.EngineHasNoStepOutsideExec := by
  intro s u hu hp
  rw [step_engine hu]
  obtain ⟨l, rfl⟩ := engineNext_same hu
  exact engineTurn_passes hp

/-- Settles O38: CLR answers `clearStatus`, whose four assignments are those of R200. -/
theorem clrClearsCompletionAndErrorStatus : Obligations.ClrClearsCompletionAndErrorStatus :=
  fun s => ⟨clearStatus s, rfl, rfl, irq_clearStatus s⟩

end Sys2Proof.System
end

section
/-! PROOFS. The exceptions family (spec/60_exceptions.md): an illegal word, a witness out of range, and what a
command that ends in a fault leaves unchanged. -/

namespace Sys2Proof.Exceptions

open Sys2Proof.Machine Sys2Proof.Safety

section
variable {s t : State} {i : Instr}

/-- The engine's step on an illegal word is the fault entry (R222). -/
theorem engineStep_illegal {why : Illegal} (hd : decode s.cmdreg = .illegal why) :
    engineStep s = .next (raiseFault .illegalCmd s) := by
  simp only [engineStep, hd]

/-- Code 1 is that of the illegal word alone; the other causes have the codes 2 to 5 (R221). -/
theorem code_bounds : ∀ {c : FaultCode}, c ≠ .illegalCmd → 2 ≤ c.code.toNat ∧ c.code.toNat ≤ 5
  | .illegalCmd, hc => absurd rfl hc
  | .operand, _ | .arithExhausted, _ | .notCoprime, _ | .witness, _ => by decide

/-- ERR is set by fault entry alone: CLR clears it, and a completion or a request leaves it as it was (R36, R230). -/
theorem execEnd_of_err_set (h : ExecEnd s i t) (hs : s.status.err = false) (ht : t.status.err = true) :
    ∃ c, c ≠ .illegalCmd ∧ t = raiseFault c s := by
  cases h with
  | fault _ c _ hc => exact ⟨c, hc, rfl⟩
  | clr => simp at ht
  | modmul | modexp | split2 | bezout | verdict | request => simp [hs] at ht

/-- MRTEST and PTEST are the commands that run rounds (R175, R193). -/
theorem roundsOf_isSome (hi : i = .ptest ∨ ∃ rounds, i = .mrtest rounds) :
    ∃ rounds, roundsOf (.instr i) = some rounds := by
  obtain rfl | ⟨rounds, rfl⟩ := hi
  · exact ⟨Config.ptestRounds, rfl⟩
  · exact ⟨rounds, rfl⟩

end

/-- Settles O35: the command ended in fault entry, whose next state is the one written out. -/
theorem faultedCommandHasNoOtherEffect : Obligations.FaultedCommandHasNoOtherEffect := by
  intro i s t h hs ht
  obtain ⟨c, hc, rfl⟩ := execEnd_of_err_set (exec_inv h) hs ht
  exact ⟨rfl, code_bounds hc⟩

/-- Settles O9: the turn the engine is given changes neither PHASE nor CMDREG, so it decodes the same illegal word. -/
theorem illegalWordEndsInFaultOne : Obligations.IllegalWordEndsInFaultOne := by
  intro s u why hu hp hd
  obtain ⟨l, rfl⟩ := engineNext_same hu
  calc step s = engineTurn { s with schedule := l } := step_engine hu
    _ = engineStep { s with schedule := l } := System.engineTurn_exec hp
    _ = .next (raiseFault .illegalCmd { s with schedule := l }) := engineStep_illegal hd

/-- Settles O50: with a witness in hand either command takes the step "round", which checks the range first (R182). -/
theorem witnessOutsideTheRangeFaults : Obligations.WitnessOutsideTheRangeFaults := by
  intro i s a hi hw ha
  obtain ⟨rounds, hrounds⟩ := roundsOf_isSome hi
  calc exec i s = .next (mrRound rounds a s) := exec_round hrounds hw
    _ = .next (raiseFault .witness s) := by rw [Primality.mrRound_faults ha]

end Sys2Proof.Exceptions
end
